-- ==== Sys2Proof/Word.lean ====
section
/-! DEFINITION. The word types of the mapper (spec 00_scope.md R5 Table P, R10, R11). -/

namespace Sys2Proof

/-- `CHAN_BITS` of Table P: bits of one colour channel. -/
abbrev chanBits : Nat := 5

/-- `IDX_BITS` of Table P: bits of a palette index. -/
abbrev idxBits : Nat := 8

/-- `TILE_WORD_BITS` of Table P: bits of one tile storage word. -/
abbrev tileWordBits : Nat := 32

/-- One byte of storage (R40). -/
abbrev Byte := BitVec 8

/-- One storage cell value of up to two bytes (R45, R101). -/
abbrev Half := BitVec 16

/-- One 32-bit word: a tile word (`TILE_WORD_BITS`, R5, R21, R22), a word `W0`..`W3` of a command
(R71), a response (R86). -/
abbrev Word := BitVec 32

/-- One command word `CMD[127:0]` (R70). -/
abbrev CommandWord := BitVec 128

/-- A coordinate component: the 32 bits of `W1` or `W2` (Table F), read as signed (`toInt`) at full width
wherever a rule uses it (R11, R75). -/
abbrev Coord := BitVec 32

/-- One colour channel, `CHAN_BITS` = 5 bits, unsigned (R5, R100). -/
abbrev Channel := BitVec 5

/-- A palette index, `IDX_BITS` = 8 bits, unsigned (R5, R100). -/
abbrev Index := BitVec 8

/-- A page of a double-buffered surface (R13, R24): the 1-bit value 0 is `Page0`, 1 is `Page1`. -/
inductive Page where
  | page0
  | page1
deriving DecidableEq, Repr

/-- The byte counts a storage cell can have (`CELLB_*` of Table P; R60: `n` in {1, 2}). -/
inductive CellSize where
  | one
  | two
deriving DecidableEq, Repr

/-- The orders the two bytes of a 16-bit cell can have (`BYTE_ORDER` of Table P). -/
inductive ByteOrder where
  /-- `v[7:0]` at the lower address (R45): the value of Table P. -/
  | littleEndian
  /-- `v[15:8]` at the lower address. -/
  | bigEndian
deriving DecidableEq, Repr

/-- The number of bytes of a cell. -/
def CellSize.bytes : CellSize → Nat
  | .one => 1
  | .two => 2

end Sys2Proof
end

