-- ==== Sys2Proof/Syntax.lean ====
section
/-! DEFINITION. The command set (spec 30_encoding.md R76, Table O): one constructor per row of
spec/opcode_table.json, with the operands and in the order of Table O. -/

namespace Sys2Proof

/-- The 19 commands (R76). Operand ranges are the operand types, as R75 and R100 have it: a value out
of range cannot be written down. A surface takes its own colour type only (R111). -/
inductive Instr where
  /-- `DRAW.FD x, y, r, g, b` (R121). -/
  | drawFD (x y : Coord) (r g b : Channel)
  /-- `CLEAR.FD r, g, b` (R122). -/
  | clearFD (r g b : Channel)
  /-- `SIZE.FD` (R123). -/
  | sizeFD
  /-- `DRAW.FP x, y, idx` (R142). -/
  | drawFP (x y : Coord) (idx : Index)
  /-- `CLEAR.FP idx` (R143). -/
  | clearFP (idx : Index)
  /-- `SIZE.FP` (R144). -/
  | sizeFP
  /-- `SELECT.FP page` (R141). -/
  | selectFP (page : Page)
  /-- `DRAW.RD x, y, r, g, b` (R162). -/
  | drawRD (x y : Coord) (r g b : Channel)
  /-- `CLEAR.RD r, g, b` (R163). -/
  | clearRD (r g b : Channel)
  /-- `SIZE.RD` (R164). -/
  | sizeRD
  /-- `SELECT.RD page` (R161). -/
  | selectRD (page : Page)
  /-- `DRAW.T4 x, y, idx` (R182). -/
  | drawT4 (x y : Coord) (idx : Index)
  /-- `CLEAR.T4 idx` (R183). -/
  | clearT4 (idx : Index)
  /-- `SIZE.T4` (R184). -/
  | sizeT4
  /-- `NEW.T4 idx` (R181). -/
  | newT4 (idx : Index)
  /-- `DRAW.T8 x, y, idx` (R202). -/
  | drawT8 (x y : Coord) (idx : Index)
  /-- `CLEAR.T8 idx` (R203). -/
  | clearT8 (idx : Index)
  /-- `SIZE.T8` (R204). -/
  | sizeT8
  /-- `NEW.T8 idx` (R201). -/
  | newT8 (idx : Index)
deriving DecidableEq, Repr

end Sys2Proof
end

