-- ==== Sys2Proof/Decode.lean ====
section
/-! DEFINITION. The command encoding (spec 30_encoding.md): formats and masks (Table F), the opcode map
(Table O), the decoder of R83, total on every 128-bit word, the encoder, and the byte serialisation of
R84. -/

namespace Sys2Proof

/-- The six command formats (R73). -/
inductive Format where
  | DD
  | DP
  | CD
  | CP
  | SP
  | SZ
deriving DecidableEq, Repr

/-- Why a word is no command (R78). -/
inductive DecodeError where
  /-- R78: the opcode byte is not one of the 19 of Table O. -/
  | illegalOpcode
  /-- R77: the opcode is in Table O and a reserved bit of its format is set. -/
  | reservedBits
deriving DecidableEq, Repr

/-- What the decoder answers (R83): a command with its operands, or "illegal" with the reason. -/
inductive Decoded where
  | command (i : Instr)
  | illegal (e : DecodeError)
deriving DecidableEq, Repr

/-- The command word `W0 W1 W2 W3`, written in the order of the spec (R71). -/
def commandWord (w0 w1 w2 w3 : Word) : CommandWord := w3 ++ w2 ++ w1 ++ w0

/-! ## Fields (R74, Table F) -/

/-- The opcode byte `CMD[7:0]` (R72). -/
def opcodeByte (cmd : CommandWord) : BitVec 8 := cmd.extractLsb' 0 8

/-- Field `X`, `CMD[63:32]`. -/
def fieldX (cmd : CommandWord) : Coord := cmd.extractLsb' 32 32

/-- Field `Y`, `CMD[95:64]`. -/
def fieldY (cmd : CommandWord) : Coord := cmd.extractLsb' 64 32

/-- Field `R`, `CMD[100:96]`. -/
def fieldR (cmd : CommandWord) : Channel := cmd.extractLsb' 96 5

/-- Field `G`, `CMD[108:104]`. -/
def fieldG (cmd : CommandWord) : Channel := cmd.extractLsb' 104 5

/-- Field `B`, `CMD[116:112]`. -/
def fieldB (cmd : CommandWord) : Channel := cmd.extractLsb' 112 5

/-- Field `IDX`, `CMD[103:96]`. -/
def fieldIdx (cmd : CommandWord) : Index := cmd.extractLsb' 96 8

/-- The page of a 1-bit value: 0 is `Page0`, 1 is `Page1` (R75). -/
def pageOfBit (p : BitVec 1) : Page := if p = 0 then .page0 else .page1

/-- Field `PAGE`, `CMD[96]`. -/
def fieldPage (cmd : CommandWord) : Page := pageOfBit (cmd.extractLsb' 96 1)

/-- `mask(fmt)`: the fixed bits of a format, second table of R74, written `W0 W1 W2 W3` as there. -/
def formatMask : Format → CommandWord
  | .DD => commandWord 0xFFFFFFFF 0x00000000 0x00000000 0xFFE0E0E0
  | .DP => commandWord 0xFFFFFFFF 0x00000000 0x00000000 0xFFFFFF00
  | .CD => commandWord 0xFFFFFFFF 0xFFFFFFFF 0xFFFFFFFF 0xFFE0E0E0
  | .CP => commandWord 0xFFFFFFFF 0xFFFFFFFF 0xFFFFFFFF 0xFFFFFF00
  | .SP => commandWord 0xFFFFFFFF 0xFFFFFFFF 0xFFFFFFFF 0xFFFFFFFE
  | .SZ => commandWord 0xFFFFFFFF 0xFFFFFFFF 0xFFFFFFFF 0xFFFFFFFF

/-! ## The opcode map -/

/-- One row of Table O: the opcode byte, the mnemonic, the format, and the command that the operand
fields of a word make. -/
structure OpRow where
  opcode : BitVec 8
  mnemonic : String
  format : Format
  command : CommandWord → Instr

/-- Table O (R76). -/
def tableO : List OpRow :=
  [ ⟨0x11, "DRAW.FD", .DD, fun w => .drawFD (fieldX w) (fieldY w) (fieldR w) (fieldG w) (fieldB w)⟩,
    ⟨0x12, "CLEAR.FD", .CD, fun w => .clearFD (fieldR w) (fieldG w) (fieldB w)⟩,
    ⟨0x13, "SIZE.FD", .SZ, fun _ => .sizeFD⟩,
    ⟨0x21, "DRAW.FP", .DP, fun w => .drawFP (fieldX w) (fieldY w) (fieldIdx w)⟩,
    ⟨0x22, "CLEAR.FP", .CP, fun w => .clearFP (fieldIdx w)⟩,
    ⟨0x23, "SIZE.FP", .SZ, fun _ => .sizeFP⟩,
    ⟨0x24, "SELECT.FP", .SP, fun w => .selectFP (fieldPage w)⟩,
    ⟨0x31, "DRAW.RD", .DD, fun w => .drawRD (fieldX w) (fieldY w) (fieldR w) (fieldG w) (fieldB w)⟩,
    ⟨0x32, "CLEAR.RD", .CD, fun w => .clearRD (fieldR w) (fieldG w) (fieldB w)⟩,
    ⟨0x33, "SIZE.RD", .SZ, fun _ => .sizeRD⟩,
    ⟨0x34, "SELECT.RD", .SP, fun w => .selectRD (fieldPage w)⟩,
    ⟨0x41, "DRAW.T4", .DP, fun w => .drawT4 (fieldX w) (fieldY w) (fieldIdx w)⟩,
    ⟨0x42, "CLEAR.T4", .CP, fun w => .clearT4 (fieldIdx w)⟩,
    ⟨0x43, "SIZE.T4", .SZ, fun _ => .sizeT4⟩,
    ⟨0x45, "NEW.T4", .CP, fun w => .newT4 (fieldIdx w)⟩,
    ⟨0x51, "DRAW.T8", .DP, fun w => .drawT8 (fieldX w) (fieldY w) (fieldIdx w)⟩,
    ⟨0x52, "CLEAR.T8", .CP, fun w => .clearT8 (fieldIdx w)⟩,
    ⟨0x53, "SIZE.T8", .SZ, fun _ => .sizeT8⟩,
    ⟨0x55, "NEW.T8", .CP, fun w => .newT8 (fieldIdx w)⟩ ]

/-- The row of an opcode byte, if it is one of the 19. -/
def opcodeRow (opc : BitVec 8) : Option OpRow := tableO.find? (fun row => row.opcode == opc)

/-- The decoder (R83), in the order R223 (1) gives: first the opcode byte, then the reserved bits. -/
def decode (cmd : CommandWord) : Decoded :=
  match opcodeRow (opcodeByte cmd) with
  | none => .illegal .illegalOpcode
  | some row =>
    if cmd &&& formatMask row.format = (opcodeByte cmd).setWidth 128 then .command (row.command cmd)
    else .illegal .reservedBits

/-! ## The encoder (R83: `CMD = zext_128(opc)` with each operand placed in its field) -/

/-- `W0` of a command: the opcode byte, `W0[31:8]` zero (R72). -/
def opcodeWord (opc : BitVec 8) : Word := opc.setWidth 32

/-- `W3` of formats `DD` and `CD`: `R` in bits 4:0, `G` in 12:8, `B` in 20:16, the rest zero. -/
def colourWord (r g b : Channel) : Word := (0 : BitVec 11) ++ b ++ (0 : BitVec 3) ++ g ++ (0 : BitVec 3) ++ r

/-- `W3` of formats `DP` and `CP`: `IDX` in bits 7:0, the rest zero. -/
def indexWord (idx : Index) : Word := idx.setWidth 32

/-- `W3` of format `SP`: `PAGE` in bit 0, the rest zero. -/
def pageWord : Page → Word
  | .page0 => 0
  | .page1 => 1

/-- The word of a command (Tables O and F). -/
def encode : Instr → CommandWord
  | .drawFD x y r g b => commandWord (opcodeWord 0x11) x y (colourWord r g b)
  | .clearFD r g b => commandWord (opcodeWord 0x12) 0 0 (colourWord r g b)
  | .sizeFD => commandWord (opcodeWord 0x13) 0 0 0
  | .drawFP x y idx => commandWord (opcodeWord 0x21) x y (indexWord idx)
  | .clearFP idx => commandWord (opcodeWord 0x22) 0 0 (indexWord idx)
  | .sizeFP => commandWord (opcodeWord 0x23) 0 0 0
  | .selectFP page => commandWord (opcodeWord 0x24) 0 0 (pageWord page)
  | .drawRD x y r g b => commandWord (opcodeWord 0x31) x y (colourWord r g b)
  | .clearRD r g b => commandWord (opcodeWord 0x32) 0 0 (colourWord r g b)
  | .sizeRD => commandWord (opcodeWord 0x33) 0 0 0
  | .selectRD page => commandWord (opcodeWord 0x34) 0 0 (pageWord page)
  | .drawT4 x y idx => commandWord (opcodeWord 0x41) x y (indexWord idx)
  | .clearT4 idx => commandWord (opcodeWord 0x42) 0 0 (indexWord idx)
  | .sizeT4 => commandWord (opcodeWord 0x43) 0 0 0
  | .newT4 idx => commandWord (opcodeWord 0x45) 0 0 (indexWord idx)
  | .drawT8 x y idx => commandWord (opcodeWord 0x51) x y (indexWord idx)
  | .clearT8 idx => commandWord (opcodeWord 0x52) 0 0 (indexWord idx)
  | .sizeT8 => commandWord (opcodeWord 0x53) 0 0 0
  | .newT8 idx => commandWord (opcodeWord 0x55) 0 0 (indexWord idx)

/-! ## Serialisation as bytes (R84), for tools only: the block sees whole words -/

/-- Byte `k` of a command word is `CMD[8k+7 : 8k]` (R84). -/
def bytesOfCommand (cmd : CommandWord) : List Byte :=
  (List.range 16).map (fun k => cmd.extractLsb' (8 * k) 8)

/-- The number whose bytes, least significant first, are `bs`. -/
def natOfBytes : List Byte → Nat
  | [] => 0
  | b :: bs => b.toNat + 256 * natOfBytes bs

/-- The first command word of a byte sequence and the bytes after it; none where fewer than the 16
bytes of a command are left (R70: there is one length). -/
def takeCommand (bs : List Byte) : Option (CommandWord × List Byte) :=
  if bs.length < 16 then none
  else some (BitVec.ofNat 128 (natOfBytes (bs.take 16)), bs.drop 16)

/-- The command word of an instruction of the opcode table: `nbits` bits of value `w`, every bit above
zero. -/
def tableWord (nbits w : Nat) : CommandWord := BitVec.ofNat 128 (w % 2 ^ nbits)

/-- What `decode` reads from an instruction whose bits are `w`: the word is laid out as bytes (R84),
read back as a command word and decoded; none where it is illegal, or longer than a command. -/
def decodeTableWord (nbits w : Nat) : Option Instr :=
  if 128 < nbits then none
  else
    match takeCommand (bytesOfCommand (tableWord nbits w)) with
    | none => none
    | some (cmd, _) =>
      match decode cmd with
      | .command i => some i
      | .illegal _ => none

end Sys2Proof
end

