-- ==== Sys2Proof/Config.lean ====
section
/-! DEFINITION. The implementation parameters of the block (spec 00_scope.md R5, Table P). -/

namespace Sys2Proof

/-- `W_TILE`, `H_TILE`: width and height of a tile buffer (Table P). -/
abbrev tileSide : Nat := 8

/-- `SLOTS`: pixel slots of a tile buffer (Table P). -/
abbrev tileSlots : Nat := 64

/-- `T4_WORDS` (Table P). -/
abbrev t4Words : Nat := 8

/-- `T8_WORDS` (Table P). -/
abbrev t8Words : Nat := 16

/-- A parameter that the spec lets have one value only: its one legal value stands in its type. -/
structure Fixed {α : Type} (a : α) where
deriving DecidableEq, Repr

/-- The value of such a parameter. -/
abbrev Fixed.val {α : Type} {a : α} (_ : Fixed a) : α := a

/-- The configuration record (R5): every name of Table P is a field. A parameter that the document itself
fixes, or whose width the command encoding fixes, is `Fixed`; the others are open under R6
(93_implementation_defined.md U10; log entry 5). Dimensions, addresses, widths and bit positions are
counts, so each is a `Nat`. -/
structure Config where
  /-- `W_TILE` (document §3: always exactly 8×8). -/
  wTile : Fixed tileSide := ⟨⟩
  /-- `H_TILE`. -/
  hTile : Fixed tileSide := ⟨⟩
  /-- `SLOTS`. -/
  slots : Fixed tileSlots := ⟨⟩
  /-- `TILE_WORD_BITS`: the width of `Word`. -/
  tileWordBits : Fixed Sys2Proof.tileWordBits := ⟨⟩
  /-- `T4_WORDS`: the length of `T4`. -/
  t4Words : Fixed Sys2Proof.t4Words := ⟨⟩
  /-- `T8_WORDS`: the length of `T8`. -/
  t8Words : Fixed Sys2Proof.t8Words := ⟨⟩
  /-- `CHAN_BITS`: the width of `Channel` (Table F). -/
  chanBits : Fixed Sys2Proof.chanBits := ⟨⟩
  /-- `IDX_BITS`: the width of `Index` (Table F). -/
  idxBits : Fixed Sys2Proof.idxBits := ⟨⟩
  /-- `CELLB_FD`: 2 in R41, R42, R47. -/
  cellbFD : Fixed CellSize.two := ⟨⟩
  /-- `CELLB_FP`: 1 in R41, R42, R47. -/
  cellbFP : Fixed CellSize.one := ⟨⟩
  /-- `CELLB_RD`: 2 in R41, R42, R47. -/
  cellbRD : Fixed CellSize.two := ⟨⟩
  /-- `COORD_W`. -/
  coordW : Nat
  /-- `ADDR_W`. -/
  addrW : Nat
  /-- `BYTE_ORDER`. -/
  byteOrder : ByteOrder
  /-- `W_FULL`. -/
  wFull : Nat
  /-- `H_FULL`. -/
  hFull : Nat
  /-- `W_RED`. -/
  wRed : Nat
  /-- `H_RED`. -/
  hRed : Nat
  /-- `BASE_FD`. -/
  baseFD : Nat
  /-- `BASE_FP[0]`. -/
  baseFP0 : Nat
  /-- `BASE_FP[1]`. -/
  baseFP1 : Nat
  /-- `BASE_RD[0]`. -/
  baseRD0 : Nat
  /-- `BASE_RD[1]`. -/
  baseRD1 : Nat
  /-- `CH_POS_R`. -/
  chPosR : Nat
  /-- `CH_POS_G`. -/
  chPosG : Nat
  /-- `CH_POS_B`. -/
  chPosB : Nat
deriving DecidableEq, Repr

/-- The values this hardware takes: the column "value" of Table P (R5). PRESUMED by the spec itself
where its column "origin" says so (log entry 16). -/
def Config.tableP : Config where
  coordW := 32
  addrW := 32
  byteOrder := .littleEndian
  wFull := 240
  hFull := 160
  wRed := 160
  hRed := 128
  baseFD := 0x06000000
  baseFP0 := 0x06000000
  baseFP1 := 0x0600A000
  baseRD0 := 0x06000000
  baseRD1 := 0x0600A000
  chPosR := 0
  chPosG := 5
  chPosB := 10

/-- `BASE_FP[p]` (R41). -/
def Config.baseFP (c : Config) : Page → Nat
  | .page0 => c.baseFP0
  | .page1 => c.baseFP1

/-- `BASE_RD[p]` (R41). -/
def Config.baseRD (c : Config) : Page → Nat
  | .page0 => c.baseRD0
  | .page1 => c.baseRD1

end Sys2Proof
end

