-- ==== Sys2Proof/Machine/State.lean ====
section
/-! DEFINITION. The state of the mapper (spec 10_state.md R20 to R32), what a run carries beside it
(R8, R26, R29, R33, R253), the reasons a step can stop, and the state after reset (R31, R250). -/

namespace Sys2Proof.Machine

/-- The storage `MEM` (R29): byte address and byte, addresses strictly rising. An address that is not
listed holds NO KNOWN value: the spec makes the initial contents arbitrary, never zero (R29, U5; log
entry 4). -/
abbrev Memory := List Host.Cell

/-- The canonical form: addresses strictly rising. (No entry can equal what an unlisted address reads
as, since that is no value.) -/
abbrev Memory.wf (m : Memory) : Prop := m.Pairwise (fun p q => p.1 < q.1)

/-- What the host presents to the block, one at a time (R7, R8, R250: reset is the one input besides
commands). -/
inductive HostInput where
  /-- A command word on the port `cmd` (R70). -/
  | command (cmd : CommandWord)
  /-- The input `reset` (R250), applied between commands. -/
  | reset
deriving DecidableEq, Repr

/-- The state of the block (R20: 770 bits, `t4`, `t8`, `pselFP`, `pselRD`), the spec's predicate
`holds_value` for each of its four elements (R12, R32), and what a run carries beside the block's own
state. -/
structure State where
  /-- `T4[0..7]` (R21). -/
  t4 : Vector Word t4Words
  /-- `T8[0..15]` (R22). -/
  t8 : Vector Word t8Words
  /-- `PSEL_FP` (R24). -/
  pselFP : Page
  /-- `PSEL_RD` (R25). -/
  pselRD : Page
  /-- `holds_value(T4)` (R32). -/
  holdsT4 : Bool
  /-- `holds_value(T8)` (R32). -/
  holdsT8 : Bool
  /-- `holds_value(PSEL_FP)` (R32). -/
  holdsPselFP : Bool
  /-- `holds_value(PSEL_RD)` (R32). -/
  holdsPselRD : Bool
  /-- The storage `MEM` outside the block (R29). -/
  mem : Memory
  /-- The configuration of the run (R5, R33): no step changes it. -/
  cfg : Config
  /-- The inputs the host has presented and the block has not yet taken, next one first (R8, R26). -/
  inputs : List HostInput
  /-- The `SIZE` responses produced so far, oldest first: the output of the run (R86, R253). -/
  responses : List Word
deriving DecidableEq, Repr

/-- The stops that are no refusal. The hardware has no fault (R9, R220); the one here says that no
step exists. -/
inductive Fault where
  /-- Raised by `step` when the host has presented no further input: the run has ended (R253), with the
  state it had. Safe: the model stops where the spec says nothing of what follows (log entry 8). -/
  | sequenceEnded
deriving DecidableEq, Repr

/-- The refusals: the table of R228, and the host's own. Every one is safe: it marks an input for which
the document gives no behaviour, and a refused run supports no claim (R9, R253). -/
inductive Refusal where
  /-- Raised by `exec` for a command without a meaning; no arm does. Safe. -/
  | notModelled (mnemonic : String)
  /-- R228 `illegal_opcode`: raised by `step` where `decode` finds the opcode byte outside Table O
  (R78). Safe. -/
  | illegalOpcode
  /-- R228 `reserved_bits`: raised by `step` where `decode` finds a reserved bit set (R77). Safe. -/
  | reservedBits
  /-- R228 `no_page_selected_FP`: raised by `DRAW.FP`, `CLEAR.FP` while `PSEL_FP` holds no value (R32, R142,
  R143, R252). Safe. -/
  | noPageSelectedFP
  /-- R228 `no_page_selected_RD`: raised by `DRAW.RD`, `CLEAR.RD` while `PSEL_RD` holds no value (R32, R162,
  R163, R252). Safe. -/
  | noPageSelectedRD
  /-- R228 `no_buffer_T4`: raised by `DRAW.T4` while `T4` holds no value (R32, R182, R252). Safe. -/
  | noBufferT4
  /-- R228 `no_buffer_T8`: raised by `DRAW.T8` while `T8` holds no value (R32, R202, R252). Safe. -/
  | noBufferT8
  /-- R228 `bad_configuration`: raised by `step` where the configuration is not well formed (R6).
  Safe. -/
  | badConfiguration
deriving DecidableEq, Repr

/-- The outcome of one command or step of this machine. -/
abbrev Result := Host.Outcome State Fault Refusal

/-- What `T4` is set to by reset: zero in every word. DESIGN CHOICE (log entry 1): the spec gives no
value; `T4` then holds no value, and no command reads it before `NEW.T4` or `CLEAR.T4` (R32). -/
def resetT4 : Vector Word t4Words := Vector.replicate t4Words 0

/-- What `T8` is set to by reset: zero in every word. DESIGN CHOICE (log entry 1), as for `T4`. -/
def resetT8 : Vector Word t8Words := Vector.replicate t8Words 0

/-- What `PSEL_FP` and `PSEL_RD` are set to by reset: `Page0`. DESIGN CHOICE (log entry 2): the spec
gives no value; the selector then holds no value, and no command reads it before `SELECT` (R32). -/
def resetPage : Page := .page0

/-- The machine right after reset (R31, R250): no element holds a value; no byte of the storage is
known; Table P; the host has presented nothing yet and nothing has been answered. -/
def State.reset : State where
  t4 := resetT4
  t8 := resetT8
  pselFP := resetPage
  pselRD := resetPage
  holdsT4 := false
  holdsT8 := false
  holdsPselFP := false
  holdsPselRD := false
  mem := []
  cfg := Config.tableP
  inputs := []
  responses := []

end Sys2Proof.Machine
end

