-- ==== Sys2Proof/Machine/Flags.lean ====
section
/-! DEFINITION. The block has no status flag, condition code or error bit, and no command computes one
(spec 10_state.md R27). The only conditions of its state that a command examines are the four
`holds_value` predicates (R32): the value test, second in the order of tests (60_exceptions.md R223).
Each hands the element's value to the rest of the rule, or refuses under the reason of R228: the spec
states the refusal and forbids any value in the element's place (R32). -/

namespace Sys2Proof.Machine

/-- `if not holds_value(PSEL_FP) then refuse(no_page_selected_FP); p <- PSEL_FP` (R142, R143).
The refusal is the spec's: its pseudocode, R32 and the row `no_page_selected_FP` of the table of R228. -/
def withPageFP (s : State) (k : Page → Result) : Result :=
  if s.holdsPselFP then k s.pselFP else .refused .noPageSelectedFP

/-- `if not holds_value(PSEL_RD) then refuse(no_page_selected_RD); p <- PSEL_RD` (R162, R163).
The refusal is the spec's: its pseudocode, R32 and the row `no_page_selected_RD` of the table of R228. -/
def withPageRD (s : State) (k : Page → Result) : Result :=
  if s.holdsPselRD then k s.pselRD else .refused .noPageSelectedRD

/-- `if not holds_value(T4) then refuse(no_buffer_T4)` (R182).
The refusal is the spec's: its pseudocode, R32 and the row `no_buffer_T4` of the table of R228. -/
def withBufferT4 (s : State) (k : Vector Word t4Words → Result) : Result :=
  if s.holdsT4 then k s.t4 else .refused .noBufferT4

/-- `if not holds_value(T8) then refuse(no_buffer_T8)` (R202).
The refusal is the spec's: its pseudocode, R32 and the row `no_buffer_T8` of the table of R228. -/
def withBufferT8 (s : State) (k : Vector Word t8Words → Result) : Result :=
  if s.holdsT8 then k s.t8 else .refused .noBufferT8

end Sys2Proof.Machine
end

