-- ==== Sys2Proof/Machine/Operands.lean ====
section
/-! DEFINITION. The pure functions the command rules call (spec 40_color_coordinate.md) and the address
of a pixel (20_memory.md R42, R43). None reads or writes state (R109); every `/` and `%` is on naturals
and every comparison of a coordinate is signed (R11, R105). -/

namespace Sys2Proof.Machine

/-! ## Colours -/

/-- A channel at its position in the native word: `zext_16(c) << pos` (R101). -/
def channelAt (pos : Nat) (c : Channel) : Half := c.setWidth 16 <<< pos

/-- `PACK15(r, g, b)`: the native storage word of a direct colour (R101). -/
def pack15 (cfg : Config) (r g b : Channel) : Half :=
  channelAt cfg.chPosR r ||| channelAt cfg.chPosG g ||| channelAt cfg.chPosB b

/-- `UNPACK15(w)`: the three channels of a native word (R102). No command uses it. -/
def unpack15 (cfg : Config) (w : Half) : Channel × Channel × Channel :=
  (w.extractLsb' cfg.chPosR 5, w.extractLsb' cfg.chPosG 5, w.extractLsb' cfg.chPosB 5)

/-- `NATIVE8(idx) = idx` (R103). -/
def native8 (idx : Index) : Byte := idx

/-- A one-byte cell value in the operand form of `memWrite`. -/
def cellOfByte (v : Byte) : Half := v.setWidth 16

/-! ## Coordinates -/

/-- `INB(W, H, x, y)`: the bounds test, on the whole signed value of each component (R106). -/
abbrev InBounds (w h : Nat) (x y : Coord) : Prop :=
  0 ≤ x.toInt ∧ x.toInt < w ∧ 0 ≤ y.toInt ∧ y.toInt < h

/-- The number of an in-bounds coordinate component. -/
def coordNat (c : Coord) : Nat := c.toInt.toNat

/-- `CELLIDX(W, x, y) = x + W*y` (R43). Rules evaluate it for in-bounds coordinates only. -/
def cellIndex (w : Nat) (x y : Coord) : Nat := coordNat x + w * coordNat y

/-- `CELLADDR(base, W, CELLB, x, y)` (R42), exact: no address of a well-formed configuration wraps
(R63). -/
def cellAddr (base w : Nat) (n : CellSize) (x y : Coord) : Nat := base + n.bytes * cellIndex w x y

/-- `ADDR_FD(x, y)` (R42). -/
def addrFD (cfg : Config) (x y : Coord) : Nat := cellAddr cfg.baseFD cfg.wFull cfg.cellbFD.val x y

/-- `ADDR_FP(p, x, y)` (R42). -/
def addrFP (cfg : Config) (p : Page) (x y : Coord) : Nat := cellAddr (cfg.baseFP p) cfg.wFull cfg.cellbFP.val x y

/-- `ADDR_RD(p, x, y)` (R42). -/
def addrRD (cfg : Config) (p : Page) (x y : Coord) : Nat := cellAddr (cfg.baseRD p) cfg.wRed cfg.cellbRD.val x y

/-- The byte range of `REGION(base, W, H, CELLB)` (R41). -/
abbrev InRegion (base w h : Nat) (n : CellSize) (a : Nat) : Prop :=
  base ≤ a ∧ a < base + w * h * n.bytes

/-- The region of `FD` (R41). -/
abbrev InRegionFD (cfg : Config) (a : Nat) : Prop := InRegion cfg.baseFD cfg.wFull cfg.hFull cfg.cellbFD.val a

/-- The region of page `p` of `FP` (R41). -/
abbrev InRegionFP (cfg : Config) (p : Page) (a : Nat) : Prop :=
  InRegion (cfg.baseFP p) cfg.wFull cfg.hFull cfg.cellbFP.val a

/-- The region of page `p` of `RD` (R41). -/
abbrev InRegionRD (cfg : Config) (p : Page) (a : Nat) : Prop :=
  InRegion (cfg.baseRD p) cfg.wRed cfg.hRed cfg.cellbRD.val a

/-! ## Tile slots -/

/-- `SLOT(x, y) = x + 8*y` (R107). Rules evaluate it for in-bounds tile coordinates only. -/
def slot (x y : Coord) : Nat := coordNat x + 8 * coordNat y

/-- `WIDX4(i)`: the word of a slot of `T4` (R107). -/
def widx4 (i : Nat) : Nat := i / 8

/-- `OFF4(i)`: the bit offset of a slot of `T4` in its word (R107). -/
def off4 (i : Nat) : Nat := (i % 8) * 4

/-- `WIDX8(i)`: the word of a slot of `T8` (R107). -/
def widx8 (i : Nat) : Nat := i / 4

/-- `OFF8(i)`: the bit offset of a slot of `T8` in its word (R107). -/
def off8 (i : Nat) : Nat := (i % 4) * 8

/-- `TRUNC4(idx) = idx[3:0]` (R108). -/
def trunc4 (idx : Index) : BitVec 4 := idx.extractLsb' 0 4

/-- `REP4(n)`: the word with `n` in each of its eight nibbles (R108). -/
def rep4 (n : BitVec 4) : Word := n ++ n ++ n ++ n ++ n ++ n ++ n ++ n

/-- `REP8(v)`: the word with `v` in each of its four bytes (R108). -/
def rep8 (v : Index) : Word := v ++ v ++ v ++ v

/-- The read-modify-write of one field of a tile word: clear the bits of `mask` at offset `off`, then
OR in `field` there (R182, R202). -/
def replaceField (old mask field : Word) (off : Nat) : Word :=
  (old &&& ~~~(mask <<< off)) ||| (field <<< off)

/-- `GET4(i)` on a buffer value: the value of slot `i` (R180). No command uses it. -/
def get4 (t : Vector Word t4Words) (i : Nat) : Word := (t.getD (widx4 i) 0 >>> off4 i) &&& 0xF

/-- `GET8(i)` on a buffer value: the value of slot `i` (R200). No command uses it. -/
def get8 (t : Vector Word t8Words) (i : Nat) : Word := (t.getD (widx8 i) 0 >>> off8 i) &&& 0xFF

/-! ## Responses -/

/-- A `SIZE` response: `rsp[31:16]` = height, `rsp[15:0]` = width (R86). -/
def sizeWord (w h : Nat) : Word := BitVec.ofNat 16 h ++ BitVec.ofNat 16 w

end Sys2Proof.Machine
end

