-- ==== Sys2Proof/WellFormed.lean ====
section
/-! DEFINITION. Well-formedness (spec 00_scope.md R6). An instruction of `Syntax.lean` has no
ill-formed term: R75 and R100 put every operand range into its type. What the spec does check is the
configuration: `Config.WF` is R6, one named condition a letter. A command WORD that is no command is
`decode`'s business (R77, R78). -/

namespace Sys2Proof

/-- R6 (a): positive dimensions, and the reduced surface has the smaller coordinate space. -/
abbrev Config.DimensionsOk (c : Config) : Prop :=
  0 < c.wFull ∧ 0 < c.hFull ∧ 0 < c.wRed ∧ 0 < c.hRed ∧ c.wRed * c.hRed < c.wFull * c.hFull

/-- R6 (b): every dimension is a representable coordinate bound and fits the `SIZE` response. -/
abbrev Config.DimensionsFit (c : Config) : Prop :=
  (c.wFull < 2 ^ (c.coordW - 1) ∧ c.wFull < 2 ^ 16) ∧ (c.hFull < 2 ^ (c.coordW - 1) ∧ c.hFull < 2 ^ 16) ∧
  (c.wRed < 2 ^ (c.coordW - 1) ∧ c.wRed < 2 ^ 16) ∧ (c.hRed < 2 ^ (c.coordW - 1) ∧ c.hRed < 2 ^ 16)

/-- R6 (c): the three channel positions are 0, 5 and 10 in some order (three positions among which all
three of 0, 5, 10 occur). -/
abbrev Config.ChannelsTile (c : Config) : Prop :=
  0 ∈ [c.chPosR, c.chPosG, c.chPosB] ∧ 5 ∈ [c.chPosR, c.chPosG, c.chPosB] ∧
  10 ∈ [c.chPosR, c.chPosG, c.chPosB]

/-- R6 (d): every base address is a multiple of its surface's cell size (R46). -/
abbrev Config.BasesAligned (c : Config) : Prop :=
  c.baseFD % c.cellbFD.val.bytes = 0 ∧ c.baseFP0 % c.cellbFP.val.bytes = 0 ∧ c.baseFP1 % c.cellbFP.val.bytes = 0 ∧
  c.baseRD0 % c.cellbRD.val.bytes = 0 ∧ c.baseRD1 % c.cellbRD.val.bytes = 0

/-- R6 (e): no region passes the top of the address space (R63). -/
abbrev Config.RegionsFit (c : Config) : Prop :=
  c.baseFD + c.wFull * c.hFull * c.cellbFD.val.bytes ≤ 2 ^ c.addrW ∧
  c.baseFP0 + c.wFull * c.hFull * c.cellbFP.val.bytes ≤ 2 ^ c.addrW ∧
  c.baseFP1 + c.wFull * c.hFull * c.cellbFP.val.bytes ≤ 2 ^ c.addrW ∧
  c.baseRD0 + c.wRed * c.hRed * c.cellbRD.val.bytes ≤ 2 ^ c.addrW ∧
  c.baseRD1 + c.wRed * c.hRed * c.cellbRD.val.bytes ≤ 2 ^ c.addrW

/-- R6 (f): the two page regions of `FP` are disjoint and the two of `RD` are disjoint (R44). -/
abbrev Config.PagesDisjoint (c : Config) : Prop :=
  (c.baseFP0 + c.wFull * c.hFull * c.cellbFP.val.bytes ≤ c.baseFP1 ∨
   c.baseFP1 + c.wFull * c.hFull * c.cellbFP.val.bytes ≤ c.baseFP0) ∧
  (c.baseRD0 + c.wRed * c.hRed * c.cellbRD.val.bytes ≤ c.baseRD1 ∨
   c.baseRD1 + c.wRed * c.hRed * c.cellbRD.val.bytes ≤ c.baseRD0)

/-- R6: a configuration is well formed when all six conditions hold. The rules of the spec are stated
for these only, and the model refuses any other (`step`, R228 `bad_configuration`). -/
abbrev Config.WF (c : Config) : Prop :=
  c.DimensionsOk ∧ c.DimensionsFit ∧ c.ChannelsTile ∧ c.BasesAligned ∧ c.RegionsFit ∧ c.PagesDisjoint

end Sys2Proof
end

