-- ==== Sys2Proof/Machine/Ops.lean ====
section
/-! DEFINITION. The named operations over the storage and the state, which every meaning is written in.
There is no operation that takes an exception or returns from one: the block has no exception, trap,
interrupt or handler (spec 60_exceptions.md R220, R222, R224, R225, R229). -/

namespace Sys2Proof.Machine

/-! ## The storage (20_memory.md R60, R61) -/

/-- The byte at an address, none where nothing is known of it (R12, R29). The block itself never reads
the storage (R49); this is the observation of a host. -/
def Memory.read : Memory → Nat → Option Byte
  | [], _ => none
  | (k, v) :: m, a => if k = a then some v else Memory.read m a

/-- Write one byte, keeping the addresses rising. -/
def Memory.writeByte : Memory → Nat → Byte → Memory
  | [], a, v => [(a, v)]
  | (k, u) :: m, a, v =>
    if k < a then (k, u) :: Memory.writeByte m a v
    else if k = a then (a, v) :: m
    else (a, v) :: (k, u) :: m

/-- The low byte of a cell value, `v[7:0]` (R45). -/
def lowByte (v : Half) : Byte := v.extractLsb' 0 8

/-- The high byte of a 16-bit cell value, `v[15:8]` (R45). -/
def highByte (v : Half) : Byte := v.extractLsb' 8 8

/-- The byte of a 16-bit cell value that stands at the cell's address (R45, `BYTE_ORDER`). -/
def firstByte (order : ByteOrder) (v : Half) : Byte :=
  match order with
  | .littleEndian => lowByte v
  | .bigEndian => highByte v

/-- The byte of a 16-bit cell value that stands one above the cell's address (R45, `BYTE_ORDER`). -/
def secondByte (order : ByteOrder) (v : Half) : Byte :=
  match order with
  | .littleEndian => highByte v
  | .bigEndian => lowByte v

/-- The 16-bit cell value whose bytes stand in that order. -/
def joinBytes (order : ByteOrder) (first second : Byte) : Half :=
  match order with
  | .littleEndian => second ++ first
  | .bigEndian => first ++ second

/-- `MemWrite(addr, n, v)` (R60), in a byte order: both bytes in one step (R48). -/
def memWrite (order : ByteOrder) (m : Memory) (addr : Nat) (n : CellSize) (v : Half) : Memory :=
  match n with
  | .one => m.writeByte addr (lowByte v)
  | .two => (m.writeByte addr (firstByte order v)).writeByte (addr + 1) (secondByte order v)

/-- The bytes of one cell, in address order. -/
def cellBytes (order : ByteOrder) (addr : Nat) (n : CellSize) (v : Half) : Memory :=
  match n with
  | .one => [(addr, lowByte v)]
  | .two => [(addr, firstByte order v), (addr + 1, secondByte order v)]

/-- The bytes of `count` consecutive cells of one value, in address order. -/
def fillCells (order : ByteOrder) (base : Nat) (n : CellSize) (v : Half) : Nat → Memory
  | 0 => []
  | count + 1 => cellBytes order base n v ++ fillCells order (base + n.bytes) n v count

/-- `MemFill(base, count, n, v)` (R61), as one step: what lies below the region, the filled region, what
lies above it. That it equals the `count` calls of `MemWrite`, in any order, is stated as an
obligation (log entry 11). -/
def memFill (order : ByteOrder) (m : Memory) (base count : Nat) (n : CellSize) (v : Half) : Memory :=
  m.filter (fun c => c.1 < base) ++ fillCells order base n v count ++
    m.filter (fun c => base + n.bytes * count ≤ c.1)

/-- `MemRead(addr, n)` (R12): the value of a cell, none where a byte of it is not known. -/
def memRead (order : ByteOrder) (m : Memory) (addr : Nat) (n : CellSize) : Option Half :=
  match n with
  | .one => (m.read addr).map cellOfByte
  | .two =>
    match m.read addr, m.read (addr + 1) with
    | some first, some second => some (joinBytes order first second)
    | _, _ => none

/-! ## Updates of the state, one for each way a rule writes it -/

/-- `MEM` becomes `m`. -/
def State.setMem (s : State) (m : Memory) : State := { s with mem := m }

/-- All of `T4` is written: from now on it holds a value (R32). -/
def State.fillT4 (s : State) (v : Word) : State :=
  { s with t4 := Vector.replicate t4Words v, holdsT4 := true }

/-- All of `T8` is written: from now on it holds a value (R32). -/
def State.fillT8 (s : State) (v : Word) : State :=
  { s with t8 := Vector.replicate t8Words v, holdsT8 := true }

/-- `T4[k] <- v` (R12): one word; `DRAW.T4` never makes a buffer hold a value (R32). -/
def State.setWordT4 (s : State) (k : Nat) (v : Word) : State := { s with t4 := s.t4.setIfInBounds k v }

/-- `T8[k] <- v` (R12). -/
def State.setWordT8 (s : State) (k : Nat) (v : Word) : State := { s with t8 := s.t8.setIfInBounds k v }

/-- `PSEL_FP <- p`: from now on it holds a value (R141). -/
def State.selectPageFP (s : State) (p : Page) : State := { s with pselFP := p, holdsPselFP := true }

/-- `PSEL_RD <- p`: from now on it holds a value (R161). -/
def State.selectPageRD (s : State) (p : Page) : State := { s with pselRD := p, holdsPselRD := true }

/-- `rsp <- v` (R12): one more response of the run (R253). -/
def State.respond (s : State) (v : Word) : State := { s with responses := s.responses ++ [v] }

/-- The inputs still to be taken become `inputs`. -/
def State.setInputs (s : State) (inputs : List HostInput) : State := { s with inputs := inputs }

/-- The input `reset` (R250): no element holds a value; `MEM`, the configuration, the inputs that follow
and the responses already given stay. The element values are those of `State.reset` (log entries 1, 2,
9). -/
def State.applyReset (s : State) : State :=
  { s with t4 := resetT4, t8 := resetT8, pselFP := resetPage, pselRD := resetPage,
           holdsT4 := false, holdsT8 := false, holdsPselFP := false, holdsPselRD := false }

/-! ## What the meanings share -/

/-- Draw on a bitmap surface: one cell write where the coordinate is in bounds, nothing otherwise
(R121, R142, R162, R221). -/
def drawBitmap (base w h : Nat) (n : CellSize) (x y : Coord) (v : Half) (s : State) : Result :=
  if InBounds w h x y then .next (s.setMem (memWrite s.cfg.byteOrder s.mem (cellAddr base w n x y) n v))
  else .next s

/-- Fill a bitmap surface page (R122, R143, R163). -/
def clearBitmap (base w h : Nat) (n : CellSize) (v : Half) (s : State) : Result :=
  .next (s.setMem (memFill s.cfg.byteOrder s.mem base (w * h) n v))

/-- Report dimensions (R123, R144, R164, R184, R204). -/
def answerSize (w h : Nat) (s : State) : Result := .next (s.respond (sizeWord w h))

/-- Fill `T4` with an index, truncated to its low four bits (R181, R183). -/
def fillTile4 (idx : Index) (s : State) : Result := .next (s.fillT4 (rep4 (trunc4 idx)))

/-- Fill `T8` with an index (R201, R203). -/
def fillTile8 (idx : Index) (s : State) : Result := .next (s.fillT8 (rep8 (native8 idx)))

/-- The word of `T4` that a draw on slot `i` leaves (R182). -/
def drawnWord4 (t : Vector Word t4Words) (i : Nat) (idx : Index) : Word :=
  replaceField (t.getD (widx4 i) 0) 0x0000000F ((trunc4 idx).setWidth 32) (off4 i)

/-- The word of `T8` that a draw on slot `i` leaves (R202). -/
def drawnWord8 (t : Vector Word t8Words) (i : Nat) (idx : Index) : Word :=
  replaceField (t.getD (widx8 i) 0) 0x000000FF ((native8 idx).setWidth 32) (off8 i)

/-- Draw on `T4`: one nibble where the coordinate is in bounds, nothing otherwise (R182). -/
def drawTile4 (x y : Coord) (idx : Index) (t : Vector Word t4Words) (s : State) : Result :=
  if InBounds s.cfg.wTile.val s.cfg.hTile.val x y then
    .next (s.setWordT4 (widx4 (slot x y)) (drawnWord4 t (slot x y) idx))
  else .next s

/-- Draw on `T8`: one byte where the coordinate is in bounds, nothing otherwise (R202). -/
def drawTile8 (x y : Coord) (idx : Index) (t : Vector Word t8Words) (s : State) : Result :=
  if InBounds s.cfg.wTile.val s.cfg.hTile.val x y then
    .next (s.setWordT8 (widx8 (slot x y)) (drawnWord8 t (slot x y) idx))
  else .next s

/-! ## What a step does around a command -/

/-- Run a step of a well-formed configuration only (R6, R228 `bad_configuration`; log entry 6). -/
def guardConfig (s : State) (k : Result) : Result :=
  if s.cfg.WF then k else .refused .badConfiguration

/-- Take the next input of the host (R8), if there is one. -/
def State.takeInput (s : State) : Option (HostInput × State) :=
  match s.inputs with
  | [] => none
  | input :: rest => some (input, s.setInputs rest)

/-- The refusal of a word that is no command (R228). -/
def refusalOf : DecodeError → Refusal
  | .illegalOpcode => .illegalOpcode
  | .reservedBits => .reservedBits

/-! ## The read-out ports (10_state.md R23) -/

/-- Port `t4_q`: the words of `T4` between two commands. Nothing a claim may rely on where `T4` holds no
value. Reading it changes no state. -/
def State.t4q (s : State) : Option (Vector Word t4Words) := if s.holdsT4 then some s.t4 else none

/-- Port `t8_q`: the words of `T8` between two commands. -/
def State.t8q (s : State) : Option (Vector Word t8Words) := if s.holdsT8 then some s.t8 else none

end Sys2Proof.Machine
end

