-- ==== Sys2Proof/Machine/FullDirect.lean ====
section
/-! DEFINITION. Family FD, the full-resolution direct-colour surface (spec 41_full_direct.md). -/

namespace Sys2Proof.Machine

/-- `DRAW.FD x, y, r, g, b` (R121). Never refused. -/
def execDrawFD (x y : Coord) (r g b : Channel) (s : State) : Result :=
  drawBitmap s.cfg.baseFD s.cfg.wFull s.cfg.hFull s.cfg.cellbFD.val x y (pack15 s.cfg r g b) s

/-- `CLEAR.FD r, g, b` (R122). Never refused. -/
def execClearFD (r g b : Channel) (s : State) : Result :=
  clearBitmap s.cfg.baseFD s.cfg.wFull s.cfg.hFull s.cfg.cellbFD.val (pack15 s.cfg r g b) s

/-- `SIZE.FD` (R123). Never refused. -/
def execSizeFD (s : State) : Result := answerSize s.cfg.wFull s.cfg.hFull s

end Sys2Proof.Machine
end

