-- ==== Sys2Proof/Machine/FullPalette.lean ====
section
/-! DEFINITION. Family FP, the full-resolution palette surface, double buffered (spec
42_full_palette.md). -/

namespace Sys2Proof.Machine

/-- `DRAW.FP x, y, idx` (R142): refused while no page is selected, in bounds or not (R32, R223). -/
def execDrawFP (x y : Coord) (idx : Index) (s : State) : Result :=
  withPageFP s fun p =>
    drawBitmap (s.cfg.baseFP p) s.cfg.wFull s.cfg.hFull s.cfg.cellbFP.val x y (cellOfByte (native8 idx)) s

/-- `CLEAR.FP idx` (R143): refused while no page is selected. -/
def execClearFP (idx : Index) (s : State) : Result :=
  withPageFP s fun p =>
    clearBitmap (s.cfg.baseFP p) s.cfg.wFull s.cfg.hFull s.cfg.cellbFP.val (cellOfByte (native8 idx)) s

/-- `SIZE.FP` (R144). Never refused. -/
def execSizeFP (s : State) : Result := answerSize s.cfg.wFull s.cfg.hFull s

/-- `SELECT.FP page` (R141). Never refused. -/
def execSelectFP (page : Page) (s : State) : Result := .next (s.selectPageFP page)

end Sys2Proof.Machine
end

