-- ==== Sys2Proof/Machine/ReducedDirect.lean ====
section
/-! DEFINITION. Family RD, the reduced-resolution direct-colour surface, double buffered (spec
43_reduced_direct.md). -/

namespace Sys2Proof.Machine

/-- `DRAW.RD x, y, r, g, b` (R162): refused while no page is selected, in bounds or not (R32, R223). -/
def execDrawRD (x y : Coord) (r g b : Channel) (s : State) : Result :=
  withPageRD s fun p =>
    drawBitmap (s.cfg.baseRD p) s.cfg.wRed s.cfg.hRed s.cfg.cellbRD.val x y (pack15 s.cfg r g b) s

/-- `CLEAR.RD r, g, b` (R163): refused while no page is selected. -/
def execClearRD (r g b : Channel) (s : State) : Result :=
  withPageRD s fun p =>
    clearBitmap (s.cfg.baseRD p) s.cfg.wRed s.cfg.hRed s.cfg.cellbRD.val (pack15 s.cfg r g b) s

/-- `SIZE.RD` (R164). Never refused. -/
def execSizeRD (s : State) : Result := answerSize s.cfg.wRed s.cfg.hRed s

/-- `SELECT.RD page` (R161). Never refused. -/
def execSelectRD (page : Page) (s : State) : Result := .next (s.selectPageRD page)

end Sys2Proof.Machine
end

