-- ==== Sys2Proof/Machine/Tile4.lean ====
section
/-! DEFINITION. Family T4, the 4-bit-packed 8×8 tile buffer (spec 44_tile4.md). -/

namespace Sys2Proof.Machine

/-- `NEW.T4 idx` (R181). Never refused. -/
def execNewT4 (idx : Index) (s : State) : Result := fillTile4 idx s

/-- `DRAW.T4 x, y, idx` (R182): refused while `T4` holds no value, in bounds or not (R32, R223). -/
def execDrawT4 (x y : Coord) (idx : Index) (s : State) : Result :=
  withBufferT4 s fun t => drawTile4 x y idx t s

/-- `CLEAR.T4 idx` (R183). Never refused, also on a buffer that holds no value. -/
def execClearT4 (idx : Index) (s : State) : Result := fillTile4 idx s

/-- `SIZE.T4` (R184). Never refused. -/
def execSizeT4 (s : State) : Result := answerSize s.cfg.wTile.val s.cfg.hTile.val s

end Sys2Proof.Machine
end

