-- ==== Sys2Proof/Machine/Tile8.lean ====
section
/-! DEFINITION. Family T8, the 8-bit-packed 8×8 tile buffer (spec 45_tile8.md). -/

namespace Sys2Proof.Machine

/-- `NEW.T8 idx` (R201). Never refused. -/
def execNewT8 (idx : Index) (s : State) : Result := fillTile8 idx s

/-- `DRAW.T8 x, y, idx` (R202): refused while `T8` holds no value, in bounds or not (R32, R223). -/
def execDrawT8 (x y : Coord) (idx : Index) (s : State) : Result :=
  withBufferT8 s fun t => drawTile8 x y idx t s

/-- `CLEAR.T8 idx` (R203). Never refused, also on a buffer that holds no value. -/
def execClearT8 (idx : Index) (s : State) : Result := fillTile8 idx s

/-- `SIZE.T8` (R204). Never refused. -/
def execSizeT8 (s : State) : Result := answerSize s.cfg.wTile.val s.cfg.hTile.val s

end Sys2Proof.Machine
end

