-- ==== Sys2Proof/Machine/Dispatch.lean ====
section
/-! DEFINITION. One arm per command of Table O (spec 30_encoding.md R76), each one direct call of its
meaning. -/

namespace Sys2Proof.Machine

-- The effect of one command on a state (R8).
def exec (i : Instr) (s : State) : Host.Outcome State Fault Refusal :=
  match i with
  | .drawFD x y r g b => Sys2Proof.Machine.execDrawFD x y r g b s
  | .clearFD r g b => Sys2Proof.Machine.execClearFD r g b s
  | .sizeFD => Sys2Proof.Machine.execSizeFD s
  | .drawFP x y idx => Sys2Proof.Machine.execDrawFP x y idx s
  | .clearFP idx => Sys2Proof.Machine.execClearFP idx s
  | .sizeFP => Sys2Proof.Machine.execSizeFP s
  | .selectFP page => Sys2Proof.Machine.execSelectFP page s
  | .drawRD x y r g b => Sys2Proof.Machine.execDrawRD x y r g b s
  | .clearRD r g b => Sys2Proof.Machine.execClearRD r g b s
  | .sizeRD => Sys2Proof.Machine.execSizeRD s
  | .selectRD page => Sys2Proof.Machine.execSelectRD page s
  | .drawT4 x y idx => Sys2Proof.Machine.execDrawT4 x y idx s
  | .clearT4 idx => Sys2Proof.Machine.execClearT4 idx s
  | .sizeT4 => Sys2Proof.Machine.execSizeT4 s
  | .newT4 idx => Sys2Proof.Machine.execNewT4 idx s
  | .drawT8 x y idx => Sys2Proof.Machine.execDrawT8 x y idx s
  | .clearT8 idx => Sys2Proof.Machine.execClearT8 idx s
  | .sizeT8 => Sys2Proof.Machine.execSizeT8 s
  | .newT8 idx => Sys2Proof.Machine.execNewT8 idx s

end Sys2Proof.Machine
end

