-- ==== Sys2Proof/Machine/Sequence.lean ====
section
/-! DEFINITION. What the block does with one input of the host, and with a sequence of commands (spec
20_memory.md R54, 30_encoding.md R82, R85, 41_full_direct.md R124). -/

namespace Sys2Proof.Machine

/-- What the block does with one input: reset (R250), or the rule of the command a word decodes to, or
the refusal of a word that is no command (R78). -/
def runInput (input : HostInput) (s : State) : Result :=
  match input with
  | .reset => .next s.applyReset
  | .command cmd =>
    match decode cmd with
    | .illegal e => .refused (refusalOf e)
    | .command i => exec i s

/-- Commands executed in the order presented, one at a time; the first that stops ends the sequence
(R54, R253). -/
def execSeq : List Instr → State → Result
  | [], s => .next s
  | i :: is, s =>
    match exec i s with
    | .next t => execSeq is t
    | .fault f => .fault f
    | .refused r => .refused r

/-- One pair of a `DRAWSEQ` on a direct-colour surface (R82 (a)). -/
structure DirectPixel where
  x : Coord
  y : Coord
  r : Channel
  g : Channel
  b : Channel
deriving DecidableEq, Repr

/-- One pair of a `DRAWSEQ` on a surface that takes a palette index (R82 (a)). -/
structure IndexPixel where
  x : Coord
  y : Coord
  idx : Index
deriving DecidableEq, Repr

/-- `DRAWSEQ.FD p1, ..., pn` (R82 (a)): the `DRAW.FD` of each pair, in the order written. -/
def drawSeqFD (ps : List DirectPixel) : List Instr := ps.map fun p => .drawFD p.x p.y p.r p.g p.b

/-- `DRAWSEQ.FP` (R82 (a)). -/
def drawSeqFP (ps : List IndexPixel) : List Instr := ps.map fun p => .drawFP p.x p.y p.idx

/-- `DRAWSEQ.RD` (R82 (a)). -/
def drawSeqRD (ps : List DirectPixel) : List Instr := ps.map fun p => .drawRD p.x p.y p.r p.g p.b

/-- `DRAWSEQ.T4` (R82 (a)). -/
def drawSeqT4 (ps : List IndexPixel) : List Instr := ps.map fun p => .drawT4 p.x p.y p.idx

/-- `DRAWSEQ.T8` (R82 (a)). -/
def drawSeqT8 (ps : List IndexPixel) : List Instr := ps.map fun p => .drawT8 p.x p.y p.idx

end Sys2Proof.Machine
end

