-- ==== Sys2Proof/Machine/Step.lean ====
section
/-! DEFINITION. One step (spec 00_scope.md R8): take the next input of the host's sequence, decode it,
apply its rule. -/

namespace Sys2Proof.Machine

/-- One step of the machine. The input is taken before its rule is applied. With no input left there is
no step (R253; log entry 8). -/
def step (s : State) : Host.Outcome State Fault Refusal :=
  guardConfig s <|
    match s.takeInput with
    | none => .fault .sequenceEnded
    | some (input, s') => runInput input s'

/-- `s` with one more command at the head of the host's sequence: the next step runs exactly it. This
stands for the host presenting the command (log entry 7). -/
def State.withFetchWord (s : State) (nbits w : Nat) : State :=
  s.setInputs (.command (tableWord nbits w) :: s.inputs)

end Sys2Proof.Machine
end

