-- ==== Sys2Proof/Machine/Assembler.lean ====
section
/-! DEFINITION. The textual form of commands (spec 00_scope.md R13, 30_encoding.md R81, R82): the line of a
command, and the reader of a line, which answers the command words the line stands for. Text is a list of
characters. No state is touched. -/

namespace Sys2Proof.Machine

/-- A line, or a part of one. -/
abbrev Text := List Char

/-! ## Writing -/

/-- A page as R13 writes it. -/
def pageText : Page → Text
  | .page0 => "Page0".toList
  | .page1 => "Page1".toList

/-- A number in decimal. -/
def decimalText (n : Nat) : Text := Nat.toDigits 10 n

/-- A signed decimal coordinate (R81). -/
def coordText (c : Coord) : Text :=
  if c.toInt < 0 then '-' :: decimalText c.toInt.natAbs else decimalText c.toInt.natAbs

/-- The operands of a command as R81 writes them, in the order of Table O. -/
def operandTexts : Instr → List Text
  | .drawFD x y r g b | .drawRD x y r g b =>
    [coordText x, coordText y, decimalText r.toNat, decimalText g.toNat, decimalText b.toNat]
  | .clearFD r g b | .clearRD r g b => [decimalText r.toNat, decimalText g.toNat, decimalText b.toNat]
  | .drawFP x y idx | .drawT4 x y idx | .drawT8 x y idx =>
    [coordText x, coordText y, decimalText idx.toNat]
  | .clearFP idx | .clearT4 idx | .newT4 idx | .clearT8 idx | .newT8 idx => [decimalText idx.toNat]
  | .selectFP page | .selectRD page => [pageText page]
  | .sizeFD | .sizeFP | .sizeRD | .sizeT4 | .sizeT8 => []

/-- Texts separated by commas (R81). -/
def separated : List Text → Text
  | [] => []
  | [t] => t
  | t :: ts => t ++ ',' :: ' ' :: separated ts

/-- The mnemonic of a command: that of its row of Table O. -/
def mnemonicText (i : Instr) : Text :=
  match opcodeRow (opcodeByte (encode i)) with
  | none => []
  | some row => row.mnemonic.toList

/-- The line of a command (R81): the mnemonic, then its operands. -/
def commandText (i : Instr) : Text :=
  match operandTexts i with
  | [] => mnemonicText i
  | t :: ts => mnemonicText i ++ ' ' :: separated (t :: ts)

/-! ## Reading -/

/-- Whether a character is blank. -/
def isBlank (c : Char) : Bool := c == ' ' || c == '\t'

/-- A text without the blanks at its two ends. -/
def trimmed (t : Text) : Text := ((t.dropWhile isBlank).reverse.dropWhile isBlank).reverse

/-- The parts of a text between the places where `sep` stands. -/
def splitAtChar (sep : Char) : Text → List Text
  | [] => [[]]
  | c :: cs =>
    if c = sep then [] :: splitAtChar sep cs
    else
      match splitAtChar sep cs with
      | [] => [[c]]
      | part :: parts => (c :: part) :: parts

/-- A decimal number. -/
def readDecimal (t : Text) : Option Nat :=
  if t ≠ [] ∧ t.all Char.isDigit then some (Nat.ofDigitChars 10 t 0) else none

/-- The sixteen digits of the hexadecimal forms of R81, each at the place that is its value, and the same in
small letters (log entry 20). -/
def digitRows : List Text := ["0123456789ABCDEF".toList, "0123456789abcdef".toList]

/-- The value of a hexadecimal digit: its place in a row of digits. -/
def hexDigit (c : Char) : Option Nat := digitRows.firstM fun row => row.idxOf? c

/-- The hexadecimal digits of a text, appended to a number. -/
def readHexOnto (n : Nat) : Text → Option Nat
  | [] => some n
  | c :: cs => (hexDigit c).bind fun d => readHexOnto (16 * n + d) cs

/-- A hexadecimal number, after its `0x`. -/
def readHex (t : Text) : Option Nat := if t = [] then none else readHexOnto 0 t

/-- A number that has to be below a bound. -/
def below (bound : Nat) (n : Option Nat) : Option Nat := n.filter fun k => decide (k < bound)

/-- A coordinate: signed decimal, or `0x` and the 32-bit pattern (R81). -/
def readCoord : Text → Option Coord
  | '0' :: 'x' :: ds => (below (2 ^ 32) (readHex ds)).map (BitVec.ofNat 32)
  | '-' :: ds => (below (2 ^ 31 + 1) (readDecimal ds)).map fun n => BitVec.ofInt 32 (-(n : Int))
  | ds => (below (2 ^ 31) (readDecimal ds)).map (BitVec.ofNat 32)

/-- A channel: decimal 0 to 31 (R81). -/
def readChannel (t : Text) : Option Channel := (below 32 (readDecimal t)).map (BitVec.ofNat 5)

/-- A palette index: decimal 0 to 255 or `0x00` to `0xFF` (R81). -/
def readIndex : Text → Option Index
  | '0' :: 'x' :: ds => (below 256 (readHex ds)).map (BitVec.ofNat 8)
  | ds => (below 256 (readDecimal ds)).map (BitVec.ofNat 8)

/-- A page: `Page0`, `Page1`, `0` or `1` (R81). -/
def readPage (t : Text) : Option Page :=
  if t = "Page0".toList ∨ t = "0".toList then some .page0
  else if t = "Page1".toList ∨ t = "1".toList then some .page1
  else none

/-- `W3` of a direct colour. -/
def readColour (r g b : Text) : Option Word :=
  (readChannel r).bind fun r => (readChannel g).bind fun g => (readChannel b).map fun b => colourWord r g b

/-- The command word of an opcode with the operands of a format placed in its fields (R83), read from
their texts. -/
def readOperands (opc : BitVec 8) : Format → List Text → Option CommandWord
  | .DD, [x, y, r, g, b] =>
    (readCoord x).bind fun x => (readCoord y).bind fun y => (readColour r g b).map fun c =>
      commandWord (opcodeWord opc) x y c
  | .DP, [x, y, idx] =>
    (readCoord x).bind fun x => (readCoord y).bind fun y => (readIndex idx).map fun idx =>
      commandWord (opcodeWord opc) x y (indexWord idx)
  | .CD, [r, g, b] => (readColour r g b).map fun c => commandWord (opcodeWord opc) 0 0 c
  | .CP, [idx] => (readIndex idx).map fun idx => commandWord (opcodeWord opc) 0 0 (indexWord idx)
  | .SP, [page] => (readPage page).map fun p => commandWord (opcodeWord opc) 0 0 (pageWord p)
  | .SZ, [] => some (commandWord (opcodeWord opc) 0 0 0)
  | _, _ => none

/-- The row of Table O with a mnemonic. -/
def mnemonicRow (t : Text) : Option OpRow := tableO.find? fun row => row.mnemonic.toList == t

/-- Operands separated by commas; none where nothing but blanks stands. -/
def operandList (t : Text) : List Text :=
  if trimmed t = [] then [] else (splitAtChar ',' t).map trimmed

/-- The tuples `(…), (…), …` of a `DRAWSEQ`, split at their closing brackets: each an opening bracket and
operands, from the second on after a comma; after the last bracket only blanks. `first` says that no tuple
has been read yet. -/
def readTuples (first : Bool) : List Text → Option (List (List Text))
  | [] => none
  | [rest] => if trimmed rest = [] then some [] else none
  | part :: parts =>
    match first, trimmed part with
    | true, '(' :: ops => (readTuples false parts).map (operandList ops :: ·)
    | false, ',' :: more =>
      match trimmed more with
      | '(' :: ops => (readTuples false parts).map (operandList ops :: ·)
      | _ => none
    | _, _ => none

/-- All the values of a list of options, if there is no `none` among them. -/
def allSome {α : Type} : List (Option α) → Option (List α)
  | [] => some []
  | a :: as => a.bind fun a => (allSome as).map (a :: ·)

/-- The command words of a line (R81, R82): one for a command, one a tuple for a `DRAWSEQ.s` (the `DRAW.s`
of each tuple in the order written), none for a line that holds nothing but blanks and a comment. The
answer `none` says that the line is not of the textual form (log entry 20). -/
def assembleLine (line : Text) : Option (List CommandWord) :=
  let body := trimmed (line.takeWhile (· ≠ ';'))
  let mnemonic := body.takeWhile fun c => !isBlank c
  let rest := body.dropWhile fun c => !isBlank c
  if body = [] then some []
  else if mnemonic.take 8 = "DRAWSEQ.".toList then
    (mnemonicRow ("DRAW.".toList ++ mnemonic.drop 8)).bind fun row =>
      (readTuples true (splitAtChar ')' rest)).bind fun tuples =>
        allSome (tuples.map (readOperands row.opcode row.format))
  else
    (mnemonicRow mnemonic).bind fun row =>
      (readOperands row.opcode row.format (operandList rest)).map ([·])

end Sys2Proof.Machine
end

