-- ==== Sys2Proof/Machine/Run.lean ====
section
/-! DEFINITION. A whole run (spec 70_reset_and_hazards.md R253): a configuration, an initial storage, a
reset, and a finite sequence of command words. -/

namespace Sys2Proof.Machine

/-- The state in which a run begins: that after reset, with the run's parameters (R33, R253). The initial
storage is any at all (R29, 93_implementation_defined.md U5). -/
def runStart (cfg : Config) (mem : Memory) (cmds : List CommandWord) : State :=
  { State.reset with cfg := cfg, mem := mem, inputs := cmds.map .command }

/-- So many steps; the first that stops ends them. -/
def stepTimes : Nat → State → Result
  | 0, s => .next s
  | n + 1, s =>
    match step s with
    | .next t => stepTimes n t
    | .fault f => .fault f
    | .refused r => .refused r

/-- A run: it ends when the last command has completed (R253). Where a command is refused, the whole run is
(R9): there is no final state. Its output are the `responses` of the final state. -/
def run (cfg : Config) (mem : Memory) (cmds : List CommandWord) : Result :=
  stepTimes cmds.length (runStart cfg mem cmds)

end Sys2Proof.Machine
end

