-- ==== Sys2Proof/Safety.lean ====
section
/-! DEFINITION. The terms the claims use: when a command's value test passes (spec
70_reset_and_hazards.md R252), the access matrix (10_state.md R35), and the invariant of a run. -/

namespace Sys2Proof.Machine

/-- The value test of a command passes: every element it reads holds a value (R32, R223 (2), R252). -/
def ValuesHeld (i : Instr) (s : State) : Prop :=
  match i with
  | .drawFP _ _ _ | .clearFP _ => s.holdsPselFP = true
  | .drawRD _ _ _ _ _ | .clearRD _ _ _ => s.holdsPselRD = true
  | .drawT4 _ _ _ => s.holdsT4 = true
  | .drawT8 _ _ _ => s.holdsT8 = true
  | .drawFD _ _ _ _ _ | .clearFD _ _ _ | .sizeFD | .sizeFP | .selectFP _ | .sizeRD | .selectRD _
  | .clearT4 _ | .sizeT4 | .newT4 _ | .clearT8 _ | .sizeT8 | .newT8 _ => True

/-- Column `T4` of the access matrix: the command writes all of `T4` (R35). -/
def FillsT4 : Instr → Prop
  | .newT4 _ | .clearT4 _ => True
  | _ => False

/-- Column `T8` of the access matrix: the command writes all of `T8` (R35). -/
def FillsT8 : Instr → Prop
  | .newT8 _ | .clearT8 _ => True
  | _ => False

/-- Column `PSEL_FP` (R35). -/
def WritesPselFP : Instr → Prop
  | .selectFP _ => True
  | _ => False

/-- Column `PSEL_RD` (R35). -/
def WritesPselRD : Instr → Prop
  | .selectRD _ => True
  | _ => False

/-- Column `response` (R35, R86). -/
def Responds : Instr → Prop
  | .sizeFD | .sizeFP | .sizeRD | .sizeT4 | .sizeT8 => True
  | _ => False

/-- The five `DRAW` commands. -/
def Draws : Instr → Prop
  | .drawFD _ _ _ _ _ | .drawFP _ _ _ | .drawRD _ _ _ _ _ | .drawT4 _ _ _ | .drawT8 _ _ _ => True
  | _ => False

/-- The three bitmap `CLEAR` commands. -/
def ClearsBitmap : Instr → Prop
  | .clearFD _ _ _ | .clearFP _ | .clearRD _ _ _ => True
  | _ => False

/-- The bytes of the cell at an address. -/
abbrev InCell (addr : Nat) (n : CellSize) (a : Nat) : Prop := addr ≤ a ∧ a < addr + n.bytes

/-- Column `MEM`: the addresses a command may write in a state (R35): a `DRAW` the one cell of its
coordinate where that is in bounds (`w*`), a `CLEAR` every cell of its surface, for `FP` and `RD` of the
selected page only. -/
def MayWrite (i : Instr) (s : State) (a : Nat) : Prop :=
  match i with
  | .drawFD x y _ _ _ =>
    InBounds s.cfg.wFull s.cfg.hFull x y ∧ InCell (addrFD s.cfg x y) s.cfg.cellbFD.val a
  | .drawFP x y _ =>
    InBounds s.cfg.wFull s.cfg.hFull x y ∧ InCell (addrFP s.cfg s.pselFP x y) s.cfg.cellbFP.val a
  | .drawRD x y _ _ _ =>
    InBounds s.cfg.wRed s.cfg.hRed x y ∧ InCell (addrRD s.cfg s.pselRD x y) s.cfg.cellbRD.val a
  | .clearFD _ _ _ => InRegionFD s.cfg a
  | .clearFP _ => InRegionFP s.cfg s.pselFP a
  | .clearRD _ _ _ => InRegionRD s.cfg s.pselRD a
  | _ => False

/-- Column `T4`, word by word (R35): `NEW` and `CLEAR` may write every word, `DRAW.T4` the one word of its
slot where the coordinate is in bounds. -/
def MayWriteWordT4 (i : Instr) (k : Nat) : Prop :=
  match i with
  | .newT4 _ | .clearT4 _ => True
  | .drawT4 x y _ => InBounds tileSide tileSide x y ∧ k = widx4 (slot x y)
  | _ => False

/-- Column `T8`, word by word (R35). -/
def MayWriteWordT8 (i : Instr) (k : Nat) : Prop :=
  match i with
  | .newT8 _ | .clearT8 _ => True
  | .drawT8 x y _ => InBounds tileSide tileSide x y ∧ k = widx8 (slot x y)
  | _ => False

/-- What every step keeps: the configuration is well formed (R6), and the storage is in its canonical
form with every listed address inside the address space (R40, R63). -/
structure Inv (s : State) : Prop where
  cfgWF : s.cfg.WF
  memWF : s.mem.wf
  memInSpace : ∀ c ∈ s.mem, c.1 < 2 ^ s.cfg.addrW

/-- The three words a `SIZE` can answer in a configuration (R123, R144, R164, R184, R204). -/
def IsSizeWord (cfg : Config) (v : Word) : Prop :=
  v = sizeWord cfg.wFull cfg.hFull ∨ v = sizeWord cfg.wRed cfg.hRed ∨ v = sizeWord tileSide tileSide

/-- Two outcomes are of one kind, stop for one reason, and go on to related states. -/
def Related (R : State → State → Prop) : Result → Result → Prop
  | .next t, .next t' => R t t'
  | .fault f, .fault f' => f = f'
  | .refused r, .refused r' => r = r'
  | _, _ => False

/-- Two states differ at most in the contents of elements that hold no value (R32). -/
structure AgreeOnHeld (s s' : State) : Prop where
  holdsT4 : s'.holdsT4 = s.holdsT4
  holdsT8 : s'.holdsT8 = s.holdsT8
  holdsPselFP : s'.holdsPselFP = s.holdsPselFP
  holdsPselRD : s'.holdsPselRD = s.holdsPselRD
  t4 : s.holdsT4 = true → s'.t4 = s.t4
  t8 : s.holdsT8 = true → s'.t8 = s.t8
  pselFP : s.holdsPselFP = true → s'.pselFP = s.pselFP
  pselRD : s.holdsPselRD = true → s'.pselRD = s.pselRD
  mem : s'.mem = s.mem
  cfg : s'.cfg = s.cfg
  inputs : s'.inputs = s.inputs
  responses : s'.responses = s.responses

/-- The last pair of a sequence that draws on a coordinate, if any does (R124: last write wins). -/
def lastPixelAt (ps : List DirectPixel) (x y : Coord) : Option DirectPixel :=
  ps.reverse.find? (fun p => p.x == x && p.y == y)

end Sys2Proof.Machine
end

