-- ==== Sys2Proof/Certificates/Slice0/Obligations.lean ====
section
/-! DEFINITION. The statements about the model that the provers are given. Each says the numbered rule, or
the section of spec/, it comes from. -/

open Sys2Proof Sys2Proof.Machine

/-! ## Encoding -/

/-- Words written out in 95_test_vectors.md (V2) from the encoding of R74 and R76, at least one a family,
decode to the commands they stand for. -/
def Obligations.SpecWordsDecode : Prop :=
  decode 0x0000001F000000010000000200000011 = .command (.drawFD 2 1 31 0 0) ∧
  decode 0x00030201000000000000000000000012 = .command (.clearFD 1 2 3) ∧
  decode 0x0000002A000000020000000300000021 = .command (.drawFP 3 2 0x2A) ∧
  decode 0x00000001000000000000000000000024 = .command (.selectFP .page1) ∧
  decode 0x00001F00000000010000000100000031 = .command (.drawRD 1 1 0 31 0) ∧
  decode 0x00000000000000000000000000000033 = .command .sizeRD ∧
  decode 0x00000003000000000000000000000045 = .command (.newT4 3) ∧
  decode 0x000000C7000000020000000500000051 = .command (.drawT8 5 2 0xC7) ∧
  decode 0x001F1F1FFFFFFFFFFFFFFFFF00000011 = .command (.drawFD (-1) (-1) 31 31 31)

/-- `decode(encode(c)) = c` for every command, every operand at every value (30_encoding.md, decoding). -/
def Obligations.DecodeInvertsEncode : Prop := ∀ i : Instr, decode (encode i) = .command i

/-- `encode(decode(w)) = w` for every legal word (30_encoding.md, decoding). -/
def Obligations.EncodeInvertsDecode : Prop :=
  ∀ (w : CommandWord) (i : Instr), decode w = .command i → encode i = w

/-- Which of the `2^128` words are illegal, and for which reason (30_encoding.md, reserved and illegal
encodings): the opcode byte is none of the 19, or it is one of them and the word is the word of no
command. Of the 256 opcode bytes 237 are illegal. -/
def Obligations.IllegalWordsAreExactlyTheOthers : Prop :=
  (∀ w : CommandWord, decode w = .illegal .illegalOpcode ↔
    w.extractLsb' 0 8 ∉ ([0x11, 0x12, 0x13, 0x21, 0x22, 0x23, 0x24, 0x31, 0x32, 0x33, 0x34, 0x41, 0x42,
      0x43, 0x45, 0x51, 0x52, 0x53, 0x55] : List (BitVec 8))) ∧
  (∀ w : CommandWord, decode w = .illegal .reservedBits ↔
    (opcodeRow (w.extractLsb' 0 8)).isSome ∧ ∀ i : Instr, encode i ≠ w) ∧
  ((List.range 256).filter fun n => (opcodeRow (BitVec.ofNat 8 n)).isNone).length = 237

/-- R84: byte `k` of a command word is `CMD[8k+7 : 8k]`, and the bytes read back as the word. -/
def Obligations.BytesOfCommandLeastSignificantFirst : Prop :=
  ∀ (w : CommandWord) (rest : List Byte),
    (bytesOfCommand w).length = 16 ∧
    (∀ k, k < 16 → (bytesOfCommand w)[k]? = some (w.extractLsb' (8 * k) 8)) ∧
    takeCommand (bytesOfCommand w ++ rest) = some (w, rest)

/-- 30_encoding.md, assembler syntax: the textual form of a command, read back, is the command's word, for
every command with every operand at every value. -/
def Obligations.AssemblerReadsWhatItWrites : Prop :=
  ∀ i : Instr, assembleLine (commandText i) = some [encode i]

/-! ## Colours, slots, addresses -/

/-- R101: the native word of a direct colour; with Table P blue, green, red from the top under a zero
bit; bit 15 is 0 in every well-formed configuration. -/
def Obligations.NativeWordOfDirectColour : Prop :=
  (∀ (cfg : Config) (r g b : Channel), pack15 cfg r g b =
    (r.setWidth 16 <<< cfg.chPosR) ||| (g.setWidth 16 <<< cfg.chPosG) ||| (b.setWidth 16 <<< cfg.chPosB)) ∧
  (∀ r g b : Channel, pack15 Config.tableP r g b = (0 : BitVec 1) ++ b ++ g ++ r) ∧
  (∀ (cfg : Config) (r g b : Channel), cfg.WF → (pack15 cfg r g b).getLsbD 15 = false) ∧
  pack15 Config.tableP 31 0 0 = 0x001F ∧ pack15 Config.tableP 0 31 0 = 0x03E0 ∧
  pack15 Config.tableP 0 0 31 = 0x7C00 ∧ pack15 Config.tableP 31 31 31 = 0x7FFF ∧
  pack15 Config.tableP 0 0 0 = 0x0000 ∧ pack15 Config.tableP 1 2 3 = 0x0C41

/-- R102: `UNPACK15` takes the three fields and ignores bit 15; packing loses nothing, hence is
injective; packing what was unpacked clears bit 15. -/
def Obligations.ColourConversionIsLossless : Prop :=
  ∀ cfg : Config, cfg.WF →
    (∀ w : Half, unpack15 cfg w =
      (w.extractLsb' cfg.chPosR 5, w.extractLsb' cfg.chPosG 5, w.extractLsb' cfg.chPosB 5)) ∧
    (∀ w : Half, unpack15 cfg (w ^^^ 0x8000) = unpack15 cfg w) ∧
    (∀ r g b : Channel, unpack15 cfg (pack15 cfg r g b) = (r, g, b)) ∧
    (∀ r g b r' g' b' : Channel, pack15 cfg r g b = pack15 cfg r' g' b' → r = r' ∧ g = g' ∧ b = b') ∧
    (∀ w : Half, pack15 cfg (unpack15 cfg w).1 (unpack15 cfg w).2.1 (unpack15 cfg w).2.2 = w &&& 0x7FFF)

/-- R107: the slot of an in-bounds tile coordinate, its word and its bit offset in either buffer. -/
def Obligations.SlotArithmetic : Prop :=
  ∀ x y : Coord, InBounds 8 8 x y →
    (slot x y : Int) = x.toInt + 8 * y.toInt ∧ slot x y < 64 ∧
    (∀ i, widx4 i = i / 8 ∧ off4 i = (i % 8) * 4 ∧ widx8 i = i / 4 ∧ off8 i = (i % 4) * 8) ∧
    (widx4 (slot x y) : Int) = y.toInt ∧ (off4 (slot x y) : Int) = 4 * x.toInt ∧
    (widx8 (slot x y) : Int) = 2 * y.toInt + x.toInt / 4 ∧ (off8 (slot x y) : Int) = 8 * (x.toInt % 4) ∧
    widx4 (slot x y) < 8 ∧ off4 (slot x y) ∈ [0, 4, 8, 12, 16, 20, 24, 28] ∧
    widx8 (slot x y) < 16 ∧ off8 (slot x y) ∈ [0, 8, 16, 24]

/-- R108: truncation to four bits, and replication of a nibble and of a byte. -/
def Obligations.TruncationAndReplication : Prop :=
  (∀ idx : Index, trunc4 idx = idx.extractLsb' 0 4 ∧ (trunc4 idx).setWidth 8 = idx &&& 0xF) ∧
  (∀ n : BitVec 4, rep4 n = n.setWidth 32 * 0x11111111 ∧ ∀ k, k < 8 → (rep4 n).extractLsb' (4 * k) 4 = n) ∧
  (∀ v : BitVec 8, rep8 v = v.setWidth 32 * 0x01010101 ∧ ∀ k, k < 4 → (rep8 v).extractLsb' (8 * k) 8 = v) ∧
  trunc4 9 = 9 ∧ trunc4 16 = 0 ∧ trunc4 0x1F = 0xF ∧ trunc4 0xA5 = 5 ∧ trunc4 255 = 15 ∧
  rep4 3 = 0x33333333 ∧ rep4 0 = 0 ∧ rep4 15 = 0xFFFFFFFF ∧ rep8 3 = 0x03030303 ∧ rep8 0xA5 = 0xA5A5A5A5

/-- R44: for every well-formed configuration (a) an in-bounds coordinate maps to a cell wholly inside the
region of its surface page, (b) two in-bounds coordinates of one surface page map to cells that do not
overlap, (c) the two page regions of one surface share no address. -/
def Obligations.AddressMappingProperties : Prop :=
  ∀ cfg : Config, cfg.WF →
    (∀ x y, InBounds cfg.wFull cfg.hFull x y →
      InRegionFD cfg (addrFD cfg x y) ∧ InRegionFD cfg (addrFD cfg x y + 1) ∧
      ∀ p, InRegionFP cfg p (addrFP cfg p x y)) ∧
    (∀ x y, InBounds cfg.wRed cfg.hRed x y → ∀ p,
      InRegionRD cfg p (addrRD cfg p x y) ∧ InRegionRD cfg p (addrRD cfg p x y + 1)) ∧
    (∀ x y x' y', InBounds cfg.wFull cfg.hFull x y → InBounds cfg.wFull cfg.hFull x' y' →
      ¬ (x = x' ∧ y = y') →
      (addrFD cfg x y + 2 ≤ addrFD cfg x' y' ∨ addrFD cfg x' y' + 2 ≤ addrFD cfg x y) ∧
      ∀ p, addrFP cfg p x y ≠ addrFP cfg p x' y') ∧
    (∀ x y x' y', InBounds cfg.wRed cfg.hRed x y → InBounds cfg.wRed cfg.hRed x' y' →
      ¬ (x = x' ∧ y = y') → ∀ p,
      addrRD cfg p x y + 2 ≤ addrRD cfg p x' y' ∨ addrRD cfg p x' y' + 2 ≤ addrRD cfg p x y) ∧
    (∀ a, ¬ (InRegionFP cfg .page0 a ∧ InRegionFP cfg .page1 a)) ∧
    (∀ a, ¬ (InRegionRD cfg .page0 a ∧ InRegionRD cfg .page1 a))

/-- 20_memory.md, alignment and no wrap-around: in a well-formed configuration every cell address is a
multiple of the cell size and no cell passes the top of the address space. -/
def Obligations.CellAddressesAlignedAndInSpace : Prop :=
  ∀ cfg : Config, cfg.WF →
    (∀ x y, InBounds cfg.wFull cfg.hFull x y →
      addrFD cfg x y % 2 = 0 ∧ addrFD cfg x y + 2 ≤ 2 ^ cfg.addrW ∧
      ∀ p, addrFP cfg p x y + 1 ≤ 2 ^ cfg.addrW) ∧
    (∀ x y, InBounds cfg.wRed cfg.hRed x y → ∀ p,
      addrRD cfg p x y % 2 = 0 ∧ addrRD cfg p x y + 2 ≤ 2 ^ cfg.addrW)

/-! ## The storage -/

/-- 20_memory.md, byte order: with the byte order of Table P a 16-bit cell reads as `v` exactly when its low
byte stands at the cell's address and its high byte one above. In either byte order a `MemWrite` of `v`
makes the cell read as `v` and changes no other byte (log entry 5). -/
def Obligations.CellsAreLittleEndian : Prop :=
  Config.tableP.byteOrder = .littleEndian ∧
  ∀ (m : Memory) (a : Nat) (v : Half),
    (memRead .littleEndian m a .two = some v ↔
      m.read a = some (v.extractLsb' 0 8) ∧ m.read (a + 1) = some (v.extractLsb' 8 8)) ∧
    ∀ order, memRead order (memWrite order m a .two v) a .two = some v ∧
      ∀ b, b ≠ a → b ≠ a + 1 → (memWrite order m a .two v).read b = m.read b

/-- 20_memory.md, primitives, with U4: `MemFill` equals the `count` calls of `MemWrite`, each cell once, in
WHATEVER order; so the order the spec leaves open does not show in the storage. -/
def Obligations.MemFillIsTheWritesInAnyOrder : Prop :=
  ∀ (order : ByteOrder) (m : Memory) (base count : Nat) (n : CellSize) (v : Half) (ks : List Nat),
    m.wf → ks.Perm (List.range count) →
    ks.foldl (fun m k => memWrite order m (base + n.bytes * k) n v) m = memFill order m base count n v

/-! ## The commands, from their pseudocode -/

/-- The pseudocode of the three bitmap draws (41 R121, 42 R142, 43 R162), address arithmetic written out:
one cell write in bounds; nothing at all out of bounds; refused while no page is selected. -/
def Obligations.BitmapDrawRules : Prop :=
  (∀ (s : State) (x y : Coord) (r g b : Channel),
    (InBounds s.cfg.wFull s.cfg.hFull x y → exec (.drawFD x y r g b) s = .next { s with
      mem := memWrite s.cfg.byteOrder s.mem (s.cfg.baseFD + 2 * (x.toInt.toNat + s.cfg.wFull * y.toInt.toNat)) .two
        (pack15 s.cfg r g b) }) ∧
    (¬ InBounds s.cfg.wFull s.cfg.hFull x y → exec (.drawFD x y r g b) s = .next s)) ∧
  (∀ (s : State) (x y : Coord) (idx : Index),
    (s.holdsPselFP = false → exec (.drawFP x y idx) s = .refused .noPageSelectedFP) ∧
    (s.holdsPselFP = true → InBounds s.cfg.wFull s.cfg.hFull x y → exec (.drawFP x y idx) s = .next { s with
      mem := memWrite s.cfg.byteOrder s.mem (s.cfg.baseFP s.pselFP + (x.toInt.toNat + s.cfg.wFull * y.toInt.toNat)) .one
        (idx.setWidth 16) }) ∧
    (s.holdsPselFP = true → ¬ InBounds s.cfg.wFull s.cfg.hFull x y →
      exec (.drawFP x y idx) s = .next s)) ∧
  (∀ (s : State) (x y : Coord) (r g b : Channel),
    (s.holdsPselRD = false → exec (.drawRD x y r g b) s = .refused .noPageSelectedRD) ∧
    (s.holdsPselRD = true → InBounds s.cfg.wRed s.cfg.hRed x y → exec (.drawRD x y r g b) s = .next { s with
      mem := memWrite s.cfg.byteOrder s.mem (s.cfg.baseRD s.pselRD + 2 * (x.toInt.toNat + s.cfg.wRed * y.toInt.toNat)) .two
        (pack15 s.cfg r g b) }) ∧
    (s.holdsPselRD = true → ¬ InBounds s.cfg.wRed s.cfg.hRed x y →
      exec (.drawRD x y r g b) s = .next s))

/-- The pseudocode of the two tile draws (44 R182, 45 R202): the named word with the named field replaced,
every other word kept; nothing out of bounds; refused while the buffer holds no value. -/
def Obligations.TileDrawRules : Prop :=
  (∀ (s : State) (x y : Coord) (idx : Index),
    (s.holdsT4 = false → exec (.drawT4 x y idx) s = .refused .noBufferT4) ∧
    (s.holdsT4 = true → ¬ InBounds 8 8 x y → exec (.drawT4 x y idx) s = .next s) ∧
    (s.holdsT4 = true → InBounds 8 8 x y → ∃ t, exec (.drawT4 x y idx) s = .next { s with t4 := t } ∧
      ∀ (k : Nat) (hk : k < 8), t[k] =
        if (k : Int) = y.toInt then
          (s.t4[k] &&& ~~~((0x0000000F : Word) <<< (4 * x.toInt.toNat))) |||
            ((idx &&& 0xF).setWidth 32 <<< (4 * x.toInt.toNat))
        else s.t4[k])) ∧
  (∀ (s : State) (x y : Coord) (idx : Index),
    (s.holdsT8 = false → exec (.drawT8 x y idx) s = .refused .noBufferT8) ∧
    (s.holdsT8 = true → ¬ InBounds 8 8 x y → exec (.drawT8 x y idx) s = .next s) ∧
    (s.holdsT8 = true → InBounds 8 8 x y → ∃ t, exec (.drawT8 x y idx) s = .next { s with t8 := t } ∧
      ∀ (k : Nat) (hk : k < 16), t[k] =
        if (k : Int) = 2 * y.toInt + x.toInt / 4 then
          (s.t8[k] &&& ~~~((0x000000FF : Word) <<< (8 * (x.toInt.toNat % 4)))) |||
            (idx.setWidth 32 <<< (8 * (x.toInt.toNat % 4)))
        else s.t8[k]))

/-- R181, R201 (`NEW`), and the same for `CLEAR` (44 R183, 45 R203): every word of the buffer holds the
replicated index, truncated to four bits in `T4`, whole in `T8`; the buffer holds a value from then on;
nothing else changes; never refused. -/
def Obligations.TileFillRules : Prop :=
  ∀ (s : State) (idx : Index),
    (∃ t, exec (.newT4 idx) s = .next { s with t4 := t, holdsT4 := true } ∧
      ∀ (k : Nat) (hk : k < 8), t[k] = rep4 (trunc4 idx)) ∧
    exec (.clearT4 idx) s = exec (.newT4 idx) s ∧
    exec (.newT4 (idx &&& 0xF)) s = exec (.newT4 idx) s ∧
    (∃ t, exec (.newT8 idx) s = .next { s with t8 := t, holdsT8 := true } ∧
      ∀ (k : Nat) (hk : k < 16), t[k] = rep8 idx) ∧
    exec (.clearT8 idx) s = exec (.newT8 idx) s

/-- R141, R161: `SELECT` sets the page of its own surface, which holds a value from then on, and changes
nothing else; selecting a page again changes nothing; never refused; the words of the examples. -/
def Obligations.SelectSetsThePage : Prop :=
  (∀ (s : State) (p : Page),
    exec (.selectFP p) s = .next { s with pselFP := p, holdsPselFP := true } ∧
    exec (.selectRD p) s = .next { s with pselRD := p, holdsPselRD := true } ∧
    execSeq [.selectFP p, .selectFP p] s = exec (.selectFP p) s ∧
    execSeq [.selectRD p, .selectRD p] s = exec (.selectRD p) s) ∧
  decode (commandWord 0x00000024 0 0 1) = .command (.selectFP .page1) ∧
  decode (commandWord 0x00000034 0 0 0) = .command (.selectRD .page0)

/-- R123, R144, R164, R184, R204: the five `SIZE` commands answer width and height, read no state but the
configuration, change nothing else, and are never refused; with Table P the responses of the examples, and
their words. -/
def Obligations.SizeAnswersTheDimensions : Prop :=
  (∀ s : State,
    exec .sizeFD s = .next { s with responses := s.responses ++
      [(BitVec.ofNat 16 s.cfg.hFull ++ BitVec.ofNat 16 s.cfg.wFull : Word)] } ∧
    exec .sizeFP s = .next { s with responses := s.responses ++
      [(BitVec.ofNat 16 s.cfg.hFull ++ BitVec.ofNat 16 s.cfg.wFull : Word)] } ∧
    exec .sizeRD s = .next { s with responses := s.responses ++
      [(BitVec.ofNat 16 s.cfg.hRed ++ BitVec.ofNat 16 s.cfg.wRed : Word)] } ∧
    exec .sizeT4 s = .next { s with responses := s.responses ++ [0x00080008] } ∧
    exec .sizeT8 s = .next { s with responses := s.responses ++ [0x00080008] }) ∧
  sizeWord Config.tableP.wFull Config.tableP.hFull = 0x00A000F0 ∧
  sizeWord Config.tableP.wRed Config.tableP.hRed = 0x008000A0 ∧
  decode (commandWord 0x00000013 0 0 0) = .command .sizeFD ∧
  decode (commandWord 0x00000023 0 0 0) = .command .sizeFP ∧
  decode (commandWord 0x00000033 0 0 0) = .command .sizeRD ∧
  decode (commandWord 0x00000043 0 0 0) = .command .sizeT4 ∧
  decode (commandWord 0x00000053 0 0 0) = .command .sizeT8

/-! ## The properties of each family -/

/-- R125 (P1 to P5), with that every command of the family completes in every state. -/
def Obligations.FullDirectProperties : Prop :=
  ∀ (s : State) (r g b : Channel),
    (∀ x y, InBounds s.cfg.wFull s.cfg.hFull x y →
      ∃ m, exec (.drawFD x y r g b) s = .next { s with mem := m } ∧
        memRead s.cfg.byteOrder m (addrFD s.cfg x y) .two = some (pack15 s.cfg r g b) ∧
        ∀ a, a ≠ addrFD s.cfg x y → a ≠ addrFD s.cfg x y + 1 → m.read a = s.mem.read a) ∧
    (∀ x y, ¬ InBounds s.cfg.wFull s.cfg.hFull x y → exec (.drawFD x y r g b) s = .next s) ∧
    (∃ m, exec (.clearFD r g b) s = .next { s with mem := m } ∧
      (∀ x y, InBounds s.cfg.wFull s.cfg.hFull x y →
        memRead s.cfg.byteOrder m (addrFD s.cfg x y) .two = some (pack15 s.cfg r g b)) ∧
      ∀ a, ¬ InRegionFD s.cfg a → m.read a = s.mem.read a) ∧
    ∃ rs, exec .sizeFD s = .next { s with responses := rs }

/-- R146 (P1 to P6), with that `DRAW.FP` and `CLEAR.FP` complete in every state with a selected page. The
well-formed configuration is a premise of page isolation (P4) alone. -/
def Obligations.FullPaletteProperties : Prop :=
  ∀ (s : State) (idx : Index) (p : Page), s.holdsPselFP = true → s.pselFP = p →
    (∀ x y, InBounds s.cfg.wFull s.cfg.hFull x y →
      ∃ m, exec (.drawFP x y idx) s = .next { s with mem := m } ∧
        m.read (addrFP s.cfg p x y) = some idx ∧
        (∀ a, a ≠ addrFP s.cfg p x y → m.read a = s.mem.read a) ∧
        (s.cfg.WF → ∀ q, q ≠ p → ∀ a, InRegionFP s.cfg q a → m.read a = s.mem.read a)) ∧
    (∀ x y, ¬ InBounds s.cfg.wFull s.cfg.hFull x y → exec (.drawFP x y idx) s = .next s) ∧
    (∃ m, exec (.clearFP idx) s = .next { s with mem := m } ∧
      (∀ x y, InBounds s.cfg.wFull s.cfg.hFull x y → m.read (addrFP s.cfg p x y) = some idx) ∧
      (∀ a, ¬ InRegionFP s.cfg p a → m.read a = s.mem.read a) ∧
      (s.cfg.WF → ∀ q, q ≠ p → ∀ a, InRegionFP s.cfg q a → m.read a = s.mem.read a)) ∧
    (∃ rs, exec .sizeFP s = .next { s with responses := rs }) ∧
    ∀ q, ∃ h, exec (.selectFP q) s = .next { s with pselFP := q, holdsPselFP := h }

/-- R166 (P1 to P6), with that `DRAW.RD` and `CLEAR.RD` complete in every state with a selected page. The
well-formed configuration is a premise of page isolation (P4) alone. -/
def Obligations.ReducedDirectProperties : Prop :=
  ∀ (s : State) (r g b : Channel) (p : Page), s.holdsPselRD = true → s.pselRD = p →
    (∀ x y, InBounds s.cfg.wRed s.cfg.hRed x y →
      ∃ m, exec (.drawRD x y r g b) s = .next { s with mem := m } ∧
        memRead s.cfg.byteOrder m (addrRD s.cfg p x y) .two = some (pack15 s.cfg r g b) ∧
        (∀ a, a ≠ addrRD s.cfg p x y → a ≠ addrRD s.cfg p x y + 1 → m.read a = s.mem.read a) ∧
        (s.cfg.WF → ∀ q, q ≠ p → ∀ a, InRegionRD s.cfg q a → m.read a = s.mem.read a)) ∧
    (∀ x y, ¬ InBounds s.cfg.wRed s.cfg.hRed x y → exec (.drawRD x y r g b) s = .next s) ∧
    (∃ m, exec (.clearRD r g b) s = .next { s with mem := m } ∧
      (∀ x y, InBounds s.cfg.wRed s.cfg.hRed x y →
        memRead s.cfg.byteOrder m (addrRD s.cfg p x y) .two = some (pack15 s.cfg r g b)) ∧
      (∀ a, ¬ InRegionRD s.cfg p a → m.read a = s.mem.read a) ∧
      (s.cfg.WF → ∀ q, q ≠ p → ∀ a, InRegionRD s.cfg q a → m.read a = s.mem.read a)) ∧
    (∃ rs, exec .sizeRD s = .next { s with responses := rs }) ∧
    ∀ q, ∃ h, exec (.selectRD q) s = .next { s with pselRD := q, holdsPselRD := h }

/-- R185 (P1 to P5): slot by slot, what the commands of `T4` leave. -/
def Obligations.TileFourProperties : Prop :=
  ∀ (s : State) (idx : Index),
    (s.holdsT4 = true → ∀ i, i < 64 →
      ∃ t, exec (.drawT4 (BitVec.ofNat 32 (i % 8)) (BitVec.ofNat 32 (i / 8)) idx) s =
          .next { s with t4 := t } ∧
        get4 t i = (idx &&& 0xF).setWidth 32 ∧ ∀ j, j < 64 → j ≠ i → get4 t j = get4 s.t4 j) ∧
    (s.holdsT4 = true → ∀ x y, ¬ InBounds 8 8 x y → exec (.drawT4 x y idx) s = .next s) ∧
    (∃ t, exec (.newT4 idx) s = .next { s with t4 := t, holdsT4 := true } ∧
      ∀ i, i < 64 → get4 t i = (idx &&& 0xF).setWidth 32) ∧
    (∃ t, exec (.clearT4 idx) s = .next { s with t4 := t, holdsT4 := true } ∧
      ∀ i, i < 64 → get4 t i = (idx &&& 0xF).setWidth 32) ∧
    ∃ rs, exec .sizeT4 s = .next { s with responses := rs }

/-- R205 (P1 to P4): slot by slot, what the commands of `T8` leave. -/
def Obligations.TileEightProperties : Prop :=
  ∀ (s : State) (idx : Index),
    (s.holdsT8 = true → ∀ i, i < 64 →
      ∃ t, exec (.drawT8 (BitVec.ofNat 32 (i % 8)) (BitVec.ofNat 32 (i / 8)) idx) s =
          .next { s with t8 := t } ∧
        get8 t i = idx.setWidth 32 ∧ ∀ j, j < 64 → j ≠ i → get8 t j = get8 s.t8 j) ∧
    (s.holdsT8 = true → ∀ x y, ¬ InBounds 8 8 x y → exec (.drawT8 x y idx) s = .next s) ∧
    (∃ t, exec (.newT8 idx) s = .next { s with t8 := t, holdsT8 := true } ∧
      ∀ i, i < 64 → get8 t i = idx.setWidth 32) ∧
    (∃ t, exec (.clearT8 idx) s = .next { s with t8 := t, holdsT8 := true } ∧
      ∀ i, i < 64 → get8 t i = idx.setWidth 32) ∧
    ∃ rs, exec .sizeT8 s = .next { s with responses := rs }

/-! ## Whole-machine rules -/

/-- R221: an out-of-bounds coordinate changes no state and produces no response; a `DRAW` on it is no
fault, no refusal and no stuck state (where the value test, which comes first, passes). -/
def Obligations.OutOfBoundsDrawIsANoOp : Prop :=
  ∀ (s : State) (x y : Coord) (r g b : Channel) (idx : Index),
    (¬ InBounds s.cfg.wFull s.cfg.hFull x y →
      exec (.drawFD x y r g b) s = .next s ∧
      (s.holdsPselFP = true → exec (.drawFP x y idx) s = .next s)) ∧
    (¬ InBounds s.cfg.wRed s.cfg.hRed x y → s.holdsPselRD = true →
      exec (.drawRD x y r g b) s = .next s) ∧
    (¬ InBounds 8 8 x y →
      (s.holdsT4 = true → exec (.drawT4 x y idx) s = .next s) ∧
      (s.holdsT8 = true → exec (.drawT8 x y idx) s = .next s))

/-- 70_reset_and_hazards.md, boot requirements: a command completes exactly when every element it reads
holds a value, whatever its operands. -/
def Obligations.CommandsCompleteExactlyWhenValuesHeld : Prop :=
  ∀ (i : Instr) (s : State), (∃ t, exec i s = .next t) ↔ ValuesHeld i s

/-- 60_exceptions.md, exceptions: no command faults. A step ends in the one fault of the model, which says
that no input is left, exactly then: that this is a stop and not an idle step is the model's choice (log
entry 8). -/
def Obligations.NothingFaults : Prop :=
  (∀ (i : Instr) (s : State) (f : Fault), exec i s ≠ .fault f) ∧
  ∀ s : State, step s = .fault .sequenceEnded ↔ s.cfg.WF ∧ s.inputs = []

/-- R228: the complete list of conditions under which a step is refused, each with its reason. That the
configuration is tested before everything else is the model's choice (log entry 6). -/
def Obligations.RefusalsAreExactlyTheTable : Prop :=
  ∀ (s : State) (why : Refusal), step s = .refused why ↔
    (why = .badConfiguration ∧ ¬ s.cfg.WF) ∨
    (s.cfg.WF ∧ ∃ cmd rest, s.inputs = .command cmd :: rest ∧
      ((why = .illegalOpcode ∧ decode cmd = .illegal .illegalOpcode) ∨
       (why = .reservedBits ∧ decode cmd = .illegal .reservedBits) ∨
       (why = .noPageSelectedFP ∧ s.holdsPselFP = false ∧
        ((∃ x y idx, decode cmd = .command (.drawFP x y idx)) ∨
         ∃ idx, decode cmd = .command (.clearFP idx))) ∨
       (why = .noPageSelectedRD ∧ s.holdsPselRD = false ∧
        ((∃ x y r g b, decode cmd = .command (.drawRD x y r g b)) ∨
         ∃ r g b, decode cmd = .command (.clearRD r g b))) ∨
       (why = .noBufferT4 ∧ s.holdsT4 = false ∧ ∃ x y idx, decode cmd = .command (.drawT4 x y idx)) ∨
       (why = .noBufferT8 ∧ s.holdsT8 = false ∧ ∃ x y idx, decode cmd = .command (.drawT8 x y idx))))

/-- 10_state.md, access matrix, the write columns: a command that answers a next state leaves alone
everything its row does not show, the configuration and the host's inputs among it. A `DRAW` may write the
one cell or tile word of its coordinate, and only where that is in bounds. -/
def Obligations.CommandsWriteOnlyWhatTheMatrixShows : Prop :=
  ∀ (i : Instr) (s t : State), exec i s = .next t →
    (∀ (k : Nat) (hk : k < 8), ¬ MayWriteWordT4 i k → t.t4[k] = s.t4[k]) ∧
    (∀ (k : Nat) (hk : k < 16), ¬ MayWriteWordT8 i k → t.t8[k] = s.t8[k]) ∧
    (¬ WritesPselFP i → t.pselFP = s.pselFP) ∧ (¬ WritesPselRD i → t.pselRD = s.pselRD) ∧
    (∀ a, ¬ MayWrite i s a → t.mem.read a = s.mem.read a) ∧
    (¬ Responds i → t.responses = s.responses) ∧
    (∃ more, t.responses = s.responses ++ more ∧ more.length ≤ 1) ∧
    t.cfg = s.cfg ∧ t.inputs = s.inputs

/-- R86: exactly the five `SIZE` commands produce a response, one word with the width in bits 15:0 and the
height in bits 31:16; every other command returns nothing. -/
def Obligations.OnlySizeResponds : Prop :=
  ∀ (i : Instr) (s t : State), s.cfg.WF → exec i s = .next t →
    (Responds i → ∃ v w h, t.responses = s.responses ++ [v] ∧ (v.extractLsb' 0 16).toNat = w ∧
      (v.extractLsb' 16 16).toNat = h ∧
      ((i = .sizeFD ∨ i = .sizeFP) ∧ w = s.cfg.wFull ∧ h = s.cfg.hFull ∨
       i = .sizeRD ∧ w = s.cfg.wRed ∧ h = s.cfg.hRed ∨
       (i = .sizeT4 ∨ i = .sizeT8) ∧ w = 8 ∧ h = 8)) ∧
    (¬ Responds i → t.responses = s.responses)

/-- R32: each element holds a value from the first command that writes it completely, ever after until a
reset; only a reset makes it hold none; a command that reads an element that holds none is refused,
whatever its coordinate. -/
def Obligations.ElementsHoldValuesFromFirstFullWrite : Prop :=
  (∀ s t : State, step s = .next t →
    (∃ rest, s.inputs = .reset :: rest ∧ t.holdsT4 = false ∧ t.holdsT8 = false ∧
      t.holdsPselFP = false ∧ t.holdsPselRD = false) ∨
    ∃ cmd rest i, s.inputs = .command cmd :: rest ∧ decode cmd = .command i ∧
      (t.holdsT4 = true ↔ s.holdsT4 = true ∨ FillsT4 i) ∧
      (t.holdsT8 = true ↔ s.holdsT8 = true ∨ FillsT8 i) ∧
      (t.holdsPselFP = true ↔ s.holdsPselFP = true ∨ WritesPselFP i) ∧
      (t.holdsPselRD = true ↔ s.holdsPselRD = true ∨ WritesPselRD i)) ∧
  ∀ (s : State) (x y : Coord) (r g b : Channel) (idx : Index),
    (s.holdsT4 = false → exec (.drawT4 x y idx) s = .refused .noBufferT4) ∧
    (s.holdsT8 = false → exec (.drawT8 x y idx) s = .refused .noBufferT8) ∧
    (s.holdsPselFP = false → exec (.drawFP x y idx) s = .refused .noPageSelectedFP ∧
      exec (.clearFP idx) s = .refused .noPageSelectedFP) ∧
    (s.holdsPselRD = false → exec (.drawRD x y r g b) s = .refused .noPageSelectedRD ∧
      exec (.clearRD r g b) s = .refused .noPageSelectedRD)

/-- R145, R165: with page `p` selected, no `DRAW` or `CLEAR` of a double-buffered surface changes a byte of
the region of its other page. -/
def Obligations.PagesAreIsolated : Prop :=
  ∀ (s t : State) (q : Page) (a : Nat), s.cfg.WF →
    (s.pselFP ≠ q → InRegionFP s.cfg q a → ∀ i,
      ((∃ x y idx, i = .drawFP x y idx) ∨ ∃ idx, i = .clearFP idx) →
      exec i s = .next t → t.mem.read a = s.mem.read a) ∧
    (s.pselRD ≠ q → InRegionRD s.cfg q a → ∀ i,
      ((∃ x y r g b, i = .drawRD x y r g b) ∨ ∃ r g b, i = .clearRD r g b) →
      exec i s = .next t → t.mem.read a = s.mem.read a)

/-- 20_memory.md R49: the block never reads the storage. Two states that differ only in `MEM` have the same
outcome but for `MEM`, where every byte is written alike in both or in neither. -/
def Obligations.StorageIsNeverRead : Prop :=
  ∀ (i : Instr) (s : State) (m : Memory),
    Related (fun t t' => t' = { t with mem := t'.mem } ∧
        ∀ a, t'.mem.read a = t.mem.read a ∨
          (t.mem.read a = s.mem.read a ∧ t'.mem.read a = m.read a))
      (exec i s) (exec i { s with mem := m })

/-- 10_state.md, access matrix, the read columns: an element that a command's row does not show as read
does not matter to its outcome; it is kept or overwritten. -/
def Obligations.CommandsReadOnlyWhatTheMatrixShows : Prop :=
  ∀ (i : Instr) (s : State) (v4 : Vector Word 8) (v8 : Vector Word 16) (p : Page),
    ((∀ x y idx, i ≠ .drawT4 x y idx) →
      Related (fun t t' => (FillsT4 i ∧ t' = t) ∨ (¬ FillsT4 i ∧ t' = { t with t4 := v4 }))
        (exec i s) (exec i { s with t4 := v4 })) ∧
    ((∀ x y idx, i ≠ .drawT8 x y idx) →
      Related (fun t t' => (FillsT8 i ∧ t' = t) ∨ (¬ FillsT8 i ∧ t' = { t with t8 := v8 }))
        (exec i s) (exec i { s with t8 := v8 })) ∧
    ((∀ x y idx, i ≠ .drawFP x y idx) → (∀ idx, i ≠ .clearFP idx) →
      Related (fun t t' => (WritesPselFP i ∧ t' = t) ∨ (¬ WritesPselFP i ∧ t' = { t with pselFP := p }))
        (exec i s) (exec i { s with pselFP := p })) ∧
    ((∀ x y r g b, i ≠ .drawRD x y r g b) → (∀ r g b, i ≠ .clearRD r g b) →
      Related (fun t t' => (WritesPselRD i ∧ t' = t) ∨ (¬ WritesPselRD i ∧ t' = { t with pselRD := p }))
        (exec i s) (exec i { s with pselRD := p }))

/-- Headline, from R32: what an element contains while it holds no value is never observed. Two states that
differ only there show the same read-out ports and take the same step, to states that again differ only
there. So nothing rests on the reset values the model chose (log entries 1 and 2). -/
def Obligations.UnheldContentsAreUnobservable : Prop :=
  ∀ s s' : State, AgreeOnHeld s s' →
    s'.t4q = s.t4q ∧ s'.t8q = s.t8q ∧ Related AgreeOnHeld (step s) (step s')

/-! ## Steps, sequences, reset -/

/-- R8: a step takes the next command of the host's sequence, decodes it and applies its rule. Where the
next input is a word that decodes to `i`, the step is `exec i` on the state with that input taken; so it
is for the encoding of `i`, and for a word placed by `withFetchWord`. -/
def Obligations.StepRunsTheDecodedCommand : Prop :=
  ∀ (s : State) (i : Instr), s.cfg.WF →
    (∀ cmd rest, s.inputs = .command cmd :: rest → decode cmd = .command i →
      step s = exec i { s with inputs := rest }) ∧
    (∀ w, decode (BitVec.ofNat 128 w) = .command i → step (s.withFetchWord 128 w) = exec i s)

/-- 10_state.md, reset values, and 70_reset_and_hazards.md, reset: after reset no element holds a value, and
the input `reset` does not change `MEM`. That it also keeps the configuration, the inputs that follow and
the responses already given is the model's choice (log entry 9). -/
def Obligations.ResetLeavesNoValueHeld : Prop :=
  (State.reset.holdsT4 = false ∧ State.reset.holdsT8 = false ∧ State.reset.holdsPselFP = false ∧
    State.reset.holdsPselRD = false) ∧
  ∀ (s : State) (rest : List HostInput), s.cfg.WF → s.inputs = .reset :: rest →
    ∃ t, step s = .next t ∧ t.holdsT4 = false ∧ t.holdsT8 = false ∧ t.holdsPselFP = false ∧
      t.holdsPselRD = false ∧ t.mem = s.mem ∧ t.cfg = s.cfg ∧ t.inputs = rest ∧
      t.responses = s.responses

/-- The invariant holds at reset: Table P is well formed (R6) and no byte is listed. -/
def Obligations.ResetMeetsTheInvariant : Prop := Inv State.reset

/-- The invariant, from every state that meets it: the configuration stays well formed, the storage keeps
its canonical form, and no byte is ever written outside the address space (20_memory.md, no
wrap-around). -/
def Obligations.EveryStepKeepsTheInvariant : Prop :=
  ∀ s t : State, Inv s → step s = .next t → Inv t

/-- 30_encoding.md, control transfer: a step takes exactly the next input, and no command skips, repeats or
reorders another. 10_state.md, what is not state, and 70_reset_and_hazards.md, boot requirements: the
configuration never changes. That a reset keeps the inputs that follow it and the configuration is the
model's choice (log entry 9). -/
def Obligations.NoControlTransfer : Prop :=
  ∀ s t : State, step s = .next t → ∃ input, s.inputs = input :: t.inputs ∧ t.cfg = s.cfg

/-- 70_reset_and_hazards.md, the end of a run, with 20_memory.md, consistency model: a run over legal command
words is its commands executed in the order presented, from the state after reset; it is refused exactly
where they are, and then leaves no state. -/
def Obligations.RunIsItsCommandsInOrder : Prop :=
  ∀ (cfg : Config) (mem : Memory) (cmds : List CommandWord) (is : List Instr), cfg.WF →
    cmds.map decode = is.map Decoded.command → run cfg mem cmds = execSeq is (runStart cfg mem [])

/-- 20_memory.md R54 (c): a later draw on the same coordinate replaces an earlier one, on every surface. -/
def Obligations.LaterDrawReplacesEarlier : Prop :=
  ∀ (s : State) (x y : Coord) (r g b r' g' b' : Channel) (idx idx' : Index), s.mem.wf →
    execSeq [.drawFD x y r g b, .drawFD x y r' g' b'] s = exec (.drawFD x y r' g' b') s ∧
    execSeq [.drawFP x y idx, .drawFP x y idx'] s = exec (.drawFP x y idx') s ∧
    execSeq [.drawRD x y r g b, .drawRD x y r' g' b'] s = exec (.drawRD x y r' g' b') s ∧
    execSeq [.drawT4 x y idx, .drawT4 x y idx'] s = exec (.drawT4 x y idx') s ∧
    execSeq [.drawT8 x y idx, .drawT8 x y idx'] s = exec (.drawT8 x y idx') s

/-- 41_full_direct.md, sequences: a `DRAWSEQ.FD` leaves in every in-bounds cell the colour of the LAST pair
that draws on it, or what was there; out-of-bounds pairs do not matter; bytes outside the region stay. -/
def Obligations.DrawSequenceLastWriteWins : Prop :=
  ∀ (s : State) (ps : List DirectPixel),
    (∃ m, execSeq (drawSeqFD ps) s = .next { s with mem := m } ∧
      (∀ x y, InBounds s.cfg.wFull s.cfg.hFull x y → memRead s.cfg.byteOrder m (addrFD s.cfg x y) .two =
        match lastPixelAt ps x y with
        | some p => some (pack15 s.cfg p.r p.g p.b)
        | none => memRead s.cfg.byteOrder s.mem (addrFD s.cfg x y) .two) ∧
      ∀ a, ¬ InRegionFD s.cfg a → m.read a = s.mem.read a) ∧
    execSeq (drawSeqFD ps) s =
      execSeq (drawSeqFD (ps.filter fun p => decide (InBounds s.cfg.wFull s.cfg.hFull p.x p.y))) s

/-- Corner cases (a) of 41 R122, (c) of 42 R143, (b) of 43 R163: a bitmap `CLEAR` ends in the very state
that drawing every in-bounds coordinate with the colour ends in, in any order, with repetitions and
out-of-bounds pairs allowed. -/
def Obligations.BitmapClearEqualsDrawingEverything : Prop :=
  ∀ s : State, s.cfg.WF → s.mem.wf →
    (∀ (r g b : Channel) (ps : List DirectPixel), (∀ p ∈ ps, p.r = r ∧ p.g = g ∧ p.b = b) →
      (∀ x y, InBounds s.cfg.wFull s.cfg.hFull x y → ∃ p ∈ ps, p.x = x ∧ p.y = y) →
      execSeq (drawSeqFD ps) s = exec (.clearFD r g b) s) ∧
    (∀ (idx : Index) (ps : List IndexPixel), s.holdsPselFP = true → (∀ p ∈ ps, p.idx = idx) →
      (∀ x y, InBounds s.cfg.wFull s.cfg.hFull x y → ∃ p ∈ ps, p.x = x ∧ p.y = y) →
      execSeq (drawSeqFP ps) s = exec (.clearFP idx) s) ∧
    (∀ (r g b : Channel) (ps : List DirectPixel), s.holdsPselRD = true →
      (∀ p ∈ ps, p.r = r ∧ p.g = g ∧ p.b = b) →
      (∀ x y, InBounds s.cfg.wRed s.cfg.hRed x y → ∃ p ∈ ps, p.x = x ∧ p.y = y) →
      execSeq (drawSeqRD ps) s = exec (.clearRD r g b) s)

/-- Corner cases (b) of 44 R183 and of 45 R203: a tile `CLEAR` ends in the very state that drawing all 64
coordinates with the index ends in, in any order. -/
def Obligations.TileClearEqualsDrawingEverything : Prop :=
  ∀ (s : State) (idx : Index) (ps : List IndexPixel), (∀ p ∈ ps, p.idx = idx) →
    (∀ x y, InBounds 8 8 x y → ∃ p ∈ ps, p.x = x ∧ p.y = y) →
    (s.holdsT4 = true → execSeq (drawSeqT4 ps) s = exec (.clearT4 idx) s) ∧
    (s.holdsT8 = true → execSeq (drawSeqT8 ps) s = exec (.clearT8 idx) s)

/-- 20_memory.md R52 with R45: the surfaces share one storage. A `DRAW.FP` on a byte of a known 16-bit cell,
of `FD` or of either page of `RD`, replaces one byte of that cell: with the byte order of Table P the low
byte where the addresses are equal, the high byte where the `FP` address is one above; in the other byte
order (log entry 5) the other one. -/
def Obligations.SurfacesShareOneStorage : Prop :=
  ∀ (s : State) (x y : Coord) (idx : Index), s.holdsPselFP = true →
    InBounds s.cfg.wFull s.cfg.hFull x y →
    ∃ m, exec (.drawFP x y idx) s = .next { s with mem := m } ∧
      ∀ (x' y' : Coord) (a : Nat) (old : Half),
        (a = addrFD s.cfg x' y' ∨ ∃ p, a = addrRD s.cfg p x' y') →
        memRead s.cfg.byteOrder s.mem a .two = some old →
        (addrFP s.cfg s.pselFP x y = a → memRead s.cfg.byteOrder m a .two =
          match s.cfg.byteOrder with
          | .littleEndian => some (old.extractLsb' 8 8 ++ idx)
          | .bigEndian => some (idx ++ old.extractLsb' 0 8)) ∧
        (addrFP s.cfg s.pselFP x y = a + 1 → memRead s.cfg.byteOrder m a .two =
          match s.cfg.byteOrder with
          | .littleEndian => some (idx ++ old.extractLsb' 0 8)
          | .bigEndian => some (old.extractLsb' 8 8 ++ idx))
end

