-- ==== Sys2Proof/Laws/Decode.lean ====
section
/-! SUPPORT. The parts of a command word that the encoder puts together, bit by bit, and what the masks of
R74 do to them. -/

namespace Sys2Proof

/-- R71: bit by bit, `W0` is `CMD[31:0]`, `W1` `CMD[63:32]`, `W2` `CMD[95:64]`, `W3` `CMD[127:96]`. -/
theorem commandWord_getLsbD (w0 w1 w2 w3 : Word) (i : Nat) :
    (commandWord w0 w1 w2 w3).getLsbD i =
      if i < 32 then w0.getLsbD i else if i < 64 then w1.getLsbD (i - 32)
      else if i < 96 then w2.getLsbD (i - 64) else w3.getLsbD (i - 96) := by
  unfold commandWord
  rw [BitVec.getLsbD_append, BitVec.getLsbD_append, BitVec.getLsbD_append]
  rw [show i - 32 - 32 = i - 64 by omega, show i - 64 - 32 = i - 96 by omega]
  split_ifs <;> first | rfl | omega

theorem opcodeWord_getLsbD (opc : BitVec 8) (i : Nat) : (opcodeWord opc).getLsbD i = opc.getLsbD i := by
  rw [opcodeWord, BitVec.getLsbD_setWidth]
  by_cases h : i < 8
  · simp [show i < 32 by omega]
  · rw [BitVec.getLsbD_of_ge opc i (by omega), Bool.and_false]

theorem indexWord_getLsbD (idx : Index) (i : Nat) : (indexWord idx).getLsbD i = idx.getLsbD i :=
  opcodeWord_getLsbD idx i

/-- R74: where the channels stand in `W3`. -/
theorem colourWord_getLsbD (r g b : Channel) (i : Nat) :
    (colourWord r g b).getLsbD i =
      if i < 8 then r.getLsbD i else if i < 16 then g.getLsbD (i - 8) else b.getLsbD (i - 16) := by
  unfold colourWord
  rw [BitVec.getLsbD_append, BitVec.getLsbD_append, BitVec.getLsbD_append, BitVec.getLsbD_append,
    BitVec.getLsbD_append]
  have z : ∀ n j, (0 : BitVec n).getLsbD j = false := fun n j => by simp
  have hr : 5 ≤ i → r.getLsbD i = false := BitVec.getLsbD_of_ge r i
  have hg : 5 ≤ i - 8 → g.getLsbD (i - 8) = false := BitVec.getLsbD_of_ge g _
  have hb : 5 ≤ i - 16 → b.getLsbD (i - 16) = false := BitVec.getLsbD_of_ge b _
  rw [z, z, z, show i - 5 - 3 = i - 8 by omega, show i - 8 - 5 - 3 = i - 16 by omega]
  split_ifs <;> first | rfl | omega | (symm; first | exact hr (by omega) | exact hg (by omega) | exact hb (by omega))

theorem opcodeByte_commandWord (opc : BitVec 8) (w1 w2 w3 : Word) :
    opcodeByte (commandWord (opcodeWord opc) w1 w2 w3) = opc := by
  apply BitVec.eq_of_getLsbD_eq
  intro i hi
  rw [opcodeByte, BitVec.getLsbD_extractLsb', commandWord_getLsbD, opcodeWord_getLsbD]
  simp [hi, show i < 32 by omega]

/-- The zero-extended opcode byte is the command word with empty operands. -/
theorem commandWord_opcode (opc : BitVec 8) : commandWord (opcodeWord opc) 0 0 0 = opc.setWidth 128 := by
  apply BitVec.eq_of_getLsbD_eq
  intro i hi
  rw [commandWord_getLsbD, opcodeWord_getLsbD, BitVec.getLsbD_setWidth]
  rcases Nat.lt_or_ge i 8 with h | h
  · simp [show i < 32 by omega, hi]
  · rw [BitVec.getLsbD_of_ge opc i h]; split_ifs <;> simp

theorem commandWord_and (a0 a1 a2 a3 b0 b1 b2 b3 : Word) :
    commandWord a0 a1 a2 a3 &&& commandWord b0 b1 b2 b3 =
      commandWord (a0 &&& b0) (a1 &&& b1) (a2 &&& b2) (a3 &&& b3) := by
  apply BitVec.eq_of_getLsbD_eq
  intro i hi
  rw [BitVec.getLsbD_and, commandWord_getLsbD, commandWord_getLsbD, commandWord_getLsbD]
  split_ifs <;> simp

theorem opcodeWord_and_ones (opc : BitVec 8) : opcodeWord opc &&& 0xFFFFFFFF = opcodeWord opc :=
  BitVec.and_allOnes

theorem colourWord_and_mask (r g b : Channel) : colourWord r g b &&& 0xFFE0E0E0 = 0 := by
  have h : (0xFFE0E0E0 : Word) = ~~~(colourWord 31 31 31) := rfl
  have ones : ∀ (c : Channel) i, c.getLsbD i = true → (31 : Channel).getLsbD i = true := by
    intro c i hc
    have hi : i < 5 := BitVec.lt_of_getLsbD hc
    rw [show (31 : Channel) = BitVec.allOnes 5 from rfl, BitVec.getLsbD_allOnes]; simp [hi]
  rw [h]
  apply BitVec.eq_of_getLsbD_eq
  intro i hi
  rw [BitVec.getLsbD_and, BitVec.getLsbD_not, colourWord_getLsbD, colourWord_getLsbD]
  have hr := ones r i
  have hg := ones g (i - 8)
  have hb := ones b (i - 16)
  split_ifs <;> simp_all

theorem indexWord_and_mask (idx : Index) : indexWord idx &&& 0xFFFFFF00 = 0 := by
  have h : (0xFFFFFF00 : Word) = ~~~(indexWord 0xFF) := rfl
  rw [h]
  apply BitVec.eq_of_getLsbD_eq
  intro i hi
  rw [BitVec.getLsbD_and, BitVec.getLsbD_not, indexWord_getLsbD, indexWord_getLsbD]
  have := BitVec.getLsbD_of_ge idx i
  rw [show (0xFF : Index) = BitVec.allOnes 8 from rfl, BitVec.getLsbD_allOnes]
  by_cases h8 : i < 8 <;> simp_all

theorem pageWord_and_mask (p : Page) : pageWord p &&& 0xFFFFFFFE = 0 := by cases p <;> rfl

/-! ## Reading back the fields the encoder placed (R74, R75) -/

theorem fieldX_commandWord (w0 x y w3 : Word) : fieldX (commandWord w0 x y w3) = x := by
  apply BitVec.eq_of_getLsbD_eq
  intro i hi
  rw [fieldX, BitVec.getLsbD_extractLsb', commandWord_getLsbD]; simp [hi]; grind

theorem fieldY_commandWord (w0 x y w3 : Word) : fieldY (commandWord w0 x y w3) = y := by
  apply BitVec.eq_of_getLsbD_eq
  intro i hi
  rw [fieldY, BitVec.getLsbD_extractLsb', commandWord_getLsbD]; simp [hi]; grind

theorem fieldR_commandWord (w0 x y : Word) (r g b : Channel) : fieldR (commandWord w0 x y (colourWord r g b)) = r := by
  apply BitVec.eq_of_getLsbD_eq
  intro i hi
  rw [fieldR, BitVec.getLsbD_extractLsb', commandWord_getLsbD, colourWord_getLsbD]; simp [hi]; grind

theorem fieldG_commandWord (w0 x y : Word) (r g b : Channel) : fieldG (commandWord w0 x y (colourWord r g b)) = g := by
  apply BitVec.eq_of_getLsbD_eq
  intro i hi
  rw [fieldG, BitVec.getLsbD_extractLsb', commandWord_getLsbD, colourWord_getLsbD]
  simp [hi, show ¬ 104 + i < 32 by omega, show ¬ 104 + i < 64 by omega, show ¬ 104 + i < 96 by omega,
    show ¬ (104 + i - 96 < 8) by omega, show 104 + i - 96 < 16 by omega, show 104 + i - 96 - 8 = i by omega]

theorem fieldB_commandWord (w0 x y : Word) (r g b : Channel) : fieldB (commandWord w0 x y (colourWord r g b)) = b := by
  apply BitVec.eq_of_getLsbD_eq
  intro i hi
  rw [fieldB, BitVec.getLsbD_extractLsb', commandWord_getLsbD, colourWord_getLsbD]
  simp [hi, show ¬ 112 + i < 32 by omega, show ¬ 112 + i < 64 by omega, show ¬ 112 + i < 96 by omega,
    show ¬ (112 + i - 96 < 8) by omega, show ¬ 112 + i - 96 < 16 by omega, show 112 + i - 96 - 16 = i by omega]

theorem fieldIdx_commandWord (w0 x y : Word) (idx : Index) : fieldIdx (commandWord w0 x y (indexWord idx)) = idx := by
  apply BitVec.eq_of_getLsbD_eq
  intro i hi
  rw [fieldIdx, BitVec.getLsbD_extractLsb', commandWord_getLsbD, indexWord_getLsbD]
  simp [hi, show ¬ 96 + i < 32 by omega, show ¬ 96 + i < 64 by omega]

theorem fieldPage_commandWord (w0 x y : Word) (p : Page) : fieldPage (commandWord w0 x y (pageWord p)) = p := by
  have : (commandWord w0 x y (pageWord p)).extractLsb' 96 1 = (pageWord p).setWidth 1 := by
    apply BitVec.eq_of_getLsbD_eq; intro i hi
    rw [BitVec.getLsbD_extractLsb', commandWord_getLsbD]
    simp [hi, show ¬ 96 + i < 32 by omega, show ¬ 96 + i < 64 by omega]
  rw [fieldPage, this]; cases p <;> rfl

end Sys2Proof
end

