-- ==== Sys2Proof/Laws/Memory.lean ====
section
/-! SUPPORT. What the storage operations do to what a byte reads as, and that each keeps the canonical
form. -/

namespace Sys2Proof.Machine

/-! ## Reading -/

@[simp] theorem Memory.read_nil (a : Nat) : Memory.read [] a = none := rfl

theorem Memory.read_cons (k : Nat) (v : Byte) (m : Memory) (a : Nat) :
    Memory.read ((k, v) :: m) a = if k = a then some v else Memory.read m a := rfl

theorem Memory.read_append (m₁ m₂ : Memory) (a : Nat) :
    Memory.read (m₁ ++ m₂) a = (Memory.read m₁ a).or (Memory.read m₂ a) := by
  induction m₁ with
  | nil => simp
  | cons c m ih =>
    obtain ⟨k, v⟩ := c
    simp only [List.cons_append, Memory.read_cons, ih]
    split <;> simp

/-- Keeping only some addresses keeps what they read as, and empties the others. -/
theorem Memory.read_filter (p : Nat → Bool) (m : Memory) (a : Nat) :
    Memory.read (m.filter fun c => p c.1) a = if p a then Memory.read m a else none := by
  induction m with
  | nil => simp
  | cons c m ih =>
    obtain ⟨k, v⟩ := c
    by_cases h : k = a
    · subst h
      by_cases hk : p k = true <;> simp [Memory.read_cons, hk, ih]
    · by_cases hk : p k = true <;> simp [Memory.read_cons, hk, ih, h]

theorem Memory.read_eq_none {m : Memory} {a : Nat} (h : ∀ c ∈ m, c.1 ≠ a) : Memory.read m a = none := by
  induction m with
  | nil => rfl
  | cons c m ih =>
    obtain ⟨k, v⟩ := c
    rw [Memory.read_cons, if_neg (h (k, v) (by simp)), ih fun c hc => h c (by simp [hc])]

/-- A read after a write of one byte. -/
theorem Memory.read_writeByte (m : Memory) (a : Nat) (v : Byte) (b : Nat) :
    (m.writeByte a v).read b = if b = a then some v else m.read b := by
  induction m with
  | nil => simp [Memory.writeByte, Memory.read_cons, eq_comm]
  | cons c m ih =>
    obtain ⟨k, u⟩ := c
    simp only [Memory.writeByte]
    split_ifs with h₁ h₂ h₃ h₄ h₅ <;> simp only [Memory.read_cons, ih] <;> grind

variable {order : ByteOrder}

/-- The byte of a cell that lies at an address, if the cell covers it. -/
def cellByteAt (order : ByteOrder) (addr : Nat) (n : CellSize) (v : Half) (a : Nat) : Option Byte :=
  (cellBytes order addr n v).read a

theorem cellByteAt_one (addr : Nat) (v : Half) (a : Nat) :
    cellByteAt order addr .one v a = if a = addr then some (lowByte v) else none := by
  simp [cellByteAt, cellBytes, Memory.read_cons, eq_comm]

theorem cellByteAt_two (addr : Nat) (v : Half) (a : Nat) :
    cellByteAt order addr .two v a =
      if a = addr then some (firstByte order v)
      else if a = addr + 1 then some (secondByte order v) else none := by
  simp [cellByteAt, cellBytes, Memory.read_cons, eq_comm]

/-- A read after `MemWrite`: the cell's bytes inside the cell, the old byte elsewhere. -/
theorem memWrite_read (m : Memory) (addr : Nat) (n : CellSize) (v : Half) (a : Nat) :
    (memWrite order m addr n v).read a = (cellByteAt order addr n v a).or (m.read a) := by
  cases n
  · rw [memWrite, Memory.read_writeByte, cellByteAt_one]; split <;> simp
  · rw [memWrite, Memory.read_writeByte, Memory.read_writeByte, cellByteAt_two]
    split_ifs with h₁ h₂ <;> first | omega | simp

/-- A cell covers exactly its `n` bytes. -/
theorem cellByteAt_eq_none {addr : Nat} {n : CellSize} {v : Half} {a : Nat}
    (h : a < addr ∨ addr + n.bytes ≤ a) : cellByteAt order addr n v a = none := by
  cases n <;> simp only [CellSize.bytes] at h
  · rw [cellByteAt_one, if_neg (by omega)]
  · rw [cellByteAt_two, if_neg (by omega), if_neg (by omega)]

theorem memWrite_read_outside {m : Memory} {addr : Nat} {n : CellSize} {v : Half} {a : Nat}
    (h : a < addr ∨ addr + n.bytes ≤ a) : (memWrite order m addr n v).read a = m.read a := by
  rw [memWrite_read, cellByteAt_eq_none h, Option.none_or]

theorem high_append_low (v : Half) : highByte v ++ lowByte v = v := by
  rw [highByte, lowByte]; ext i hi; simp; grind

@[simp] theorem lowByte_append (hi lo : Byte) : lowByte (hi ++ lo) = lo := by
  rw [lowByte]; ext i hi; simp; grind

@[simp] theorem highByte_append (hi lo : Byte) : highByte (hi ++ lo) = hi := by
  rw [highByte]; ext i hi; simp; grind

@[simp] theorem lowByte_cellOfByte (v : Byte) : lowByte (cellOfByte v) = v := by
  rw [lowByte, cellOfByte]; ext i hi; simp [hi]; intro _; omega

/-- Splitting a cell value and joining its bytes, in either byte order, gives it back. -/
@[simp] theorem joinBytes_split (v : Half) : joinBytes order (firstByte order v) (secondByte order v) = v := by
  cases order <;> exact high_append_low v

@[simp] theorem firstByte_join (b₁ b₂ : Byte) : firstByte order (joinBytes order b₁ b₂) = b₁ := by
  cases order <;> simp [firstByte, joinBytes]

@[simp] theorem secondByte_join (b₁ b₂ : Byte) : secondByte order (joinBytes order b₁ b₂) = b₂ := by
  cases order <;> simp [secondByte, joinBytes]

/-- A 16-bit cell reads as `v` exactly when its two bytes are those of `v`. -/
theorem memRead_two_eq_some {m : Memory} {addr : Nat} {v : Half} :
    memRead order m addr .two = some v ↔
      m.read addr = some (firstByte order v) ∧ m.read (addr + 1) = some (secondByte order v) := by
  simp only [memRead]
  split
  · next b₁ b₂ e₁ e₂ =>
    rw [e₁, e₂]
    constructor
    · rintro h; obtain rfl := Option.some.inj h; simp
    · rintro ⟨h₁, h₂⟩
      rw [Option.some.inj h₁, Option.some.inj h₂, joinBytes_split]
  · next h => constructor
              · simp
              · rintro ⟨h₁, h₂⟩; exact absurd h₂ (h _ _ h₁)

/-- A cell read back after `MemWrite` is the value written. -/
theorem memRead_memWrite_two (m : Memory) (addr : Nat) (v : Half) :
    memRead order (memWrite order m addr .two v) addr .two = some v := by
  simp [memRead, memWrite_read, cellByteAt_two]

theorem memRead_memWrite_one (m : Memory) (addr : Nat) (v : Byte) :
    memRead order (memWrite order m addr .one (cellOfByte v)) addr .one = some (cellOfByte v) := by
  simp [memRead, memWrite_read, cellByteAt_one]

/-! ## Filling -/

theorem cellBytes_bounds {addr : Nat} {n : CellSize} {v : Half} {c : Host.Cell}
    (h : c ∈ cellBytes order addr n v) : addr ≤ c.1 ∧ c.1 < addr + n.bytes := by
  cases n <;> simp only [cellBytes, CellSize.bytes, List.mem_cons, List.not_mem_nil, or_false] at *
  · subst h; simp
  · rcases h with rfl | rfl <;> simp

theorem fillCells_bounds {base : Nat} {n : CellSize} {v : Half} {count : Nat} {c : Host.Cell}
    (h : c ∈ fillCells order base n v count) : base ≤ c.1 ∧ c.1 < base + n.bytes * count := by
  induction count generalizing base with
  | zero => simp [fillCells] at h
  | succ k ih =>
    rw [fillCells, List.mem_append] at h
    rw [Nat.mul_succ]
    rcases h with h | h
    · have := cellBytes_bounds h; omega
    · have := ih h; omega

/-- The byte that lies at an address of a region filled with one value. -/
theorem fillCells_read {base : Nat} {n : CellSize} {v : Half} {count : Nat} {a : Nat}
    (h₁ : base ≤ a) (h₂ : a < base + n.bytes * count) :
    (fillCells order base n v count).read a = cellByteAt order (a - (a - base) % n.bytes) n v a := by
  induction count generalizing base with
  | zero => simp at h₂; omega
  | succ k ih =>
    rw [fillCells, Memory.read_append]
    by_cases hlt : a < base + n.bytes
    · have e : a - (a - base) % n.bytes = base := by rw [Nat.mod_eq_of_lt (by omega)]; omega
      rw [e, Memory.read_eq_none (m := fillCells order _ _ _ _) (fun c hc => by have := fillCells_bounds hc; omega)]
      simp [cellByteAt]
    · rw [Memory.read_eq_none (m := cellBytes order _ _ _) (fun c hc => by have := cellBytes_bounds hc; omega),
        Option.none_or, ih (by omega) (by rw [Nat.mul_succ] at h₂; omega)]
      have e : (a - (base + n.bytes)) % n.bytes = (a - base) % n.bytes := by
        rw [show a - base = (a - (base + n.bytes)) + n.bytes by omega, Nat.add_mod_right]
      rw [e]

/-- A read after `MemFill`: inside the region the byte of the cell the address lies in, elsewhere the old
byte. -/
theorem memFill_read (m : Memory) (base count : Nat) (n : CellSize) (v : Half) (a : Nat) :
    (memFill order m base count n v).read a =
      if base ≤ a ∧ a < base + n.bytes * count
      then cellByteAt order (a - (a - base) % n.bytes) n v a else m.read a := by
  rw [memFill, Memory.read_append, Memory.read_append,
    Memory.read_filter (fun k => decide (k < base)),
    Memory.read_filter (fun k => decide (base + n.bytes * count ≤ k))]
  by_cases h : base ≤ a ∧ a < base + n.bytes * count
  · rw [if_pos h, fillCells_read h.1 h.2]
    simp [show ¬ a < base by omega, show ¬ base + n.bytes * count ≤ a by omega]
  · rw [if_neg h, Memory.read_eq_none (m := fillCells order _ _ _ _)
      (fun c hc => by have := fillCells_bounds hc; omega)]
    by_cases ha : a < base
    · simp [ha, show ¬ base + n.bytes * count ≤ a by omega]
    · simp [ha, show base + n.bytes * count ≤ a by omega]

/-! ## The canonical form -/

theorem Memory.mem_writeByte {m : Memory} {a : Nat} {v : Byte} {c : Host.Cell}
    (h : c ∈ m.writeByte a v) : c = (a, v) ∨ c ∈ m := by
  induction m with
  | nil => simpa [Memory.writeByte] using h
  | cons d m ih =>
    obtain ⟨k, u⟩ := d
    simp only [Memory.writeByte] at h
    split_ifs at h <;> simp only [List.mem_cons] at h ⊢ <;> grind

theorem Memory.writeByte_wf {m : Memory} (hm : m.wf) (a : Nat) (v : Byte) : (m.writeByte a v).wf := by
  induction m with
  | nil => simp [Memory.writeByte, Memory.wf]
  | cons d m ih =>
    obtain ⟨k, u⟩ := d
    have ⟨hk, hm'⟩ := List.pairwise_cons.mp hm
    simp only [Memory.writeByte]
    split_ifs with h₁ h₂
    · refine List.pairwise_cons.mpr ⟨fun c hc => ?_, ih hm'⟩
      rcases Memory.mem_writeByte hc with rfl | hc
      · exact h₁
      · exact hk c hc
    · subst h₂; exact List.pairwise_cons.mpr ⟨hk, hm'⟩
    · refine List.pairwise_cons.mpr ⟨fun c hc => ?_, hm⟩
      rcases List.mem_cons.mp hc with rfl | hc
      · exact (by omega : a < k)
      · have := hk c hc; simp only at this ⊢; omega

theorem memWrite_wf {m : Memory} (hm : m.wf) (addr : Nat) (n : CellSize) (v : Half) :
    (memWrite order m addr n v).wf := by
  cases n
  · exact Memory.writeByte_wf hm _ _
  · exact Memory.writeByte_wf (Memory.writeByte_wf hm _ _) _ _

theorem mem_memWrite {m : Memory} {addr : Nat} {n : CellSize} {v : Half} {c : Host.Cell}
    (h : c ∈ memWrite order m addr n v) : (addr ≤ c.1 ∧ c.1 < addr + n.bytes) ∨ c ∈ m := by
  cases n <;> simp only [memWrite, CellSize.bytes] at *
  · rcases Memory.mem_writeByte h with rfl | h <;> simp_all
  · rcases Memory.mem_writeByte h with rfl | h
    · simp
    · rcases Memory.mem_writeByte h with rfl | h <;> simp_all

theorem cellBytes_wf (addr : Nat) (n : CellSize) (v : Half) : (cellBytes order addr n v).wf := by
  cases n <;> simp [cellBytes, Memory.wf]

theorem fillCells_wf (base : Nat) (n : CellSize) (v : Half) (count : Nat) :
    (fillCells order base n v count).wf := by
  induction count generalizing base with
  | zero => simp [fillCells, Memory.wf]
  | succ k ih =>
    refine List.pairwise_append.mpr ⟨cellBytes_wf base n v, ih _, fun c hc d hd => ?_⟩
    have := cellBytes_bounds hc
    have := fillCells_bounds hd
    omega

theorem memFill_wf {m : Memory} (hm : m.wf) (base count : Nat) (n : CellSize) (v : Half) :
    (memFill order m base count n v).wf := by
  refine List.pairwise_append.mpr ⟨List.pairwise_append.mpr
    ⟨hm.filter _, fillCells_wf base n v count, fun c hc d hd => ?_⟩, hm.filter _, fun c hc d hd => ?_⟩
  · have := fillCells_bounds hd
    simp only [List.mem_filter, decide_eq_true_eq] at hc
    omega
  · simp only [List.mem_append, List.mem_filter, decide_eq_true_eq] at hc hd
    rcases hc with hc | hc
    · omega
    · have := fillCells_bounds hc; omega

theorem mem_memFill {m : Memory} {base count : Nat} {n : CellSize} {v : Half} {c : Host.Cell}
    (h : c ∈ memFill order m base count n v) : (base ≤ c.1 ∧ c.1 < base + n.bytes * count) ∨ c ∈ m := by
  simp only [memFill, List.mem_append, List.mem_filter] at h
  rcases h with (h | h) | h
  · exact .inr h.1
  · exact .inl (fillCells_bounds h)
  · exact .inr h.1

/-- Two canonical memories that read alike at every address are the same memory. -/
theorem Memory.ext_of_wf {m₁ m₂ : Memory} (h₁ : m₁.wf) (h₂ : m₂.wf)
    (h : ∀ a, m₁.read a = m₂.read a) : m₁ = m₂ := by
  induction m₁ generalizing m₂ with
  | nil =>
    cases m₂ with
    | nil => rfl
    | cons c m => have := h c.1; simp [Memory.read] at this
  | cons c m ih =>
    obtain ⟨k, v⟩ := c
    cases m₂ with
    | nil => have := h k; simp [Memory.read] at this
    | cons d m' =>
      obtain ⟨k', v'⟩ := d
      have ⟨hk, hm⟩ := List.pairwise_cons.mp h₁
      have ⟨hk', hm'⟩ := List.pairwise_cons.mp h₂
      have none_of : ∀ {b : Nat} {l : Memory}, (∀ c ∈ l, b < c.1) → ∀ a ≤ b, Memory.read l a = none :=
        fun hl a ha => Memory.read_eq_none fun c hc => by have := hl c hc; omega
      have e : k = k' := by
        rcases Nat.lt_trichotomy k k' with hlt | he | hlt
        · have := h k
          rw [Memory.read_cons, Memory.read_cons, if_pos rfl, if_neg (by omega),
            none_of hk' k (by simp; omega)] at this
          simp at this
        · exact he
        · have := h k'
          rw [Memory.read_cons, Memory.read_cons, if_pos rfl, if_neg (by omega),
            none_of hk k' (by simp; omega)] at this
          simp at this
      subst e
      have ev : v = v' := by have := h k; simpa [Memory.read_cons] using this
      subst ev
      refine congrArg _ (ih hm hm' fun a => ?_)
      by_cases ha : k = a
      · subst ha; rw [none_of hk k (Nat.le_refl _), none_of hk' k (Nat.le_refl _)]
      · have := h a; simpa [Memory.read_cons, ha] using this

end Sys2Proof.Machine
end

