-- ==== Sys2Proof/Laws/Operands.lean ====
section
/-! SUPPORT. Where in-bounds coordinates land: cells inside their region, slots inside their buffer. -/

namespace Sys2Proof.Machine

theorem InBounds.x_lt {w h : Nat} {x y : Coord} (hb : InBounds w h x y) : coordNat x < w := by
  unfold coordNat; obtain ⟨_, _, _, _⟩ := hb; omega

theorem InBounds.y_lt {w h : Nat} {x y : Coord} (hb : InBounds w h x y) : coordNat y < h := by
  unfold coordNat; obtain ⟨_, _, _, _⟩ := hb; omega

/-- A coordinate component is determined by its number when it is not negative. -/
theorem coordNat_inj {c d : Coord} (hc : 0 ≤ c.toInt) (hd : 0 ≤ d.toInt) (h : coordNat c = coordNat d) :
    c = d := by
  unfold coordNat at h; exact BitVec.eq_of_toInt_eq (by omega)

/-- R43: the cell index of an in-bounds coordinate lies in `[0, W*H)`. -/
theorem cellIndex_lt {w h : Nat} {x y : Coord} (hb : InBounds w h x y) : cellIndex w x y < w * h := by
  have hx := hb.x_lt
  have hy : coordNat y + 1 ≤ h := hb.y_lt
  have := Nat.mul_le_mul_left w hy
  rw [Nat.mul_add] at this
  unfold cellIndex; omega

/-- R43: the cell index of an in-bounds coordinate determines the coordinate. -/
theorem cellIndex_inj {w h : Nat} {x y x' y' : Coord} (hb : InBounds w h x y) (hb' : InBounds w h x' y')
    (e : cellIndex w x y = cellIndex w x' y') : x = x' ∧ y = y' := by
  have hx := hb.x_lt
  have hx' := hb'.x_lt
  have ex : coordNat x = coordNat x' := by
    have := congrArg (· % w) e
    simpa [cellIndex, Nat.add_mul_mod_self_left, Nat.mod_eq_of_lt hx, Nat.mod_eq_of_lt hx'] using this
  have ey : coordNat y = coordNat y' := by
    unfold cellIndex at e
    exact Nat.eq_of_mul_eq_mul_left (by omega : 0 < w) (by omega)
  exact ⟨coordNat_inj hb.1 hb'.1 ex, coordNat_inj hb.2.2.1 hb'.2.2.1 ey⟩

theorem bytes_pos (n : CellSize) : 0 < n.bytes := by cases n <;> decide

/-- R44 (a): a cell of an in-bounds coordinate lies wholly inside its region. -/
theorem cellAddr_in_region {base w h : Nat} {n : CellSize} {x y : Coord} (hb : InBounds w h x y) :
    base ≤ cellAddr base w n x y ∧ cellAddr base w n x y + n.bytes ≤ base + w * h * n.bytes := by
  have h1 : cellIndex w x y + 1 ≤ w * h := cellIndex_lt hb
  have := Nat.mul_le_mul_left n.bytes h1
  rw [Nat.mul_add, Nat.mul_comm n.bytes (w * h)] at this
  unfold cellAddr; omega

/-- R107: the slot of an in-bounds tile coordinate lies in `[0, 63]`. -/
theorem slot_lt {x y : Coord} (hb : InBounds tileSide tileSide x y) : slot x y < tileSlots := by
  have hx := hb.x_lt
  have hy := hb.y_lt
  simp only [tileSide, tileSlots] at *
  unfold slot; omega

/-- A slot of `T4` lies in one of the eight words, its nibble inside the word (R105 (f)). -/
theorem slot4_place {i : Nat} (h : i < tileSlots) : widx4 i < t4Words ∧ off4 i + 4 ≤ 32 := by
  simp only [tileSlots, t4Words, widx4, off4] at *; omega

/-- A slot of `T8` lies in one of the sixteen words, its byte inside the word (R105 (f)). -/
theorem slot8_place {i : Nat} (h : i < tileSlots) : widx8 i < t8Words ∧ off8 i + 8 ≤ 32 := by
  simp only [tileSlots, t8Words, widx8, off8] at *; omega

/-- The page regions of one double-buffered surface share no address (R6 (f)). -/
theorem pagesFP_disjoint {c : Config} (hc : c.WF) {p q : Page} (hpq : p ≠ q) {a : Nat}
    (h : InRegionFP c p a) : ¬ InRegionFP c q a := by
  have hd := hc.2.2.2.2.2.1
  clear hc
  rintro ⟨h₃, h₄⟩
  obtain ⟨h₁, h₂⟩ := h
  cases p <;> cases q <;> first | exact hpq rfl | (simp only [Config.baseFP] at h₁ h₂ h₃ h₄; omega)

theorem pagesRD_disjoint {c : Config} (hc : c.WF) {p q : Page} (hpq : p ≠ q) {a : Nat}
    (h : InRegionRD c p a) : ¬ InRegionRD c q a := by
  have hd := hc.2.2.2.2.2.2
  clear hc
  rintro ⟨h₃, h₄⟩
  obtain ⟨h₁, h₂⟩ := h
  cases p <;> cases q <;> first | exact hpq rfl | (simp only [Config.baseRD] at h₁ h₂ h₃ h₄; omega)

end Sys2Proof.Machine
end

