-- ==== Sys2Proof/Laws/State.lean ====
section
/-! SUPPORT. One lemma per field per update of the state, so that no later proof unfolds a record update. -/

namespace Sys2Proof.Machine

variable (s : State)

@[simp] theorem State.setMem_t4 (m : Memory) : (s.setMem m).t4 = s.t4 := rfl
@[simp] theorem State.setMem_t8 (m : Memory) : (s.setMem m).t8 = s.t8 := rfl
@[simp] theorem State.setMem_pselFP (m : Memory) : (s.setMem m).pselFP = s.pselFP := rfl
@[simp] theorem State.setMem_pselRD (m : Memory) : (s.setMem m).pselRD = s.pselRD := rfl
@[simp] theorem State.setMem_holdsT4 (m : Memory) : (s.setMem m).holdsT4 = s.holdsT4 := rfl
@[simp] theorem State.setMem_holdsT8 (m : Memory) : (s.setMem m).holdsT8 = s.holdsT8 := rfl
@[simp] theorem State.setMem_holdsPselFP (m : Memory) : (s.setMem m).holdsPselFP = s.holdsPselFP := rfl
@[simp] theorem State.setMem_holdsPselRD (m : Memory) : (s.setMem m).holdsPselRD = s.holdsPselRD := rfl
@[simp] theorem State.setMem_mem (m : Memory) : (s.setMem m).mem = m := rfl
@[simp] theorem State.setMem_cfg (m : Memory) : (s.setMem m).cfg = s.cfg := rfl
@[simp] theorem State.setMem_inputs (m : Memory) : (s.setMem m).inputs = s.inputs := rfl
@[simp] theorem State.setMem_responses (m : Memory) : (s.setMem m).responses = s.responses := rfl

@[simp] theorem State.fillT4_t4 (v : Word) : (s.fillT4 v).t4 = Vector.replicate t4Words v := rfl
@[simp] theorem State.fillT4_t8 (v : Word) : (s.fillT4 v).t8 = s.t8 := rfl
@[simp] theorem State.fillT4_pselFP (v : Word) : (s.fillT4 v).pselFP = s.pselFP := rfl
@[simp] theorem State.fillT4_pselRD (v : Word) : (s.fillT4 v).pselRD = s.pselRD := rfl
@[simp] theorem State.fillT4_holdsT4 (v : Word) : (s.fillT4 v).holdsT4 = true := rfl
@[simp] theorem State.fillT4_holdsT8 (v : Word) : (s.fillT4 v).holdsT8 = s.holdsT8 := rfl
@[simp] theorem State.fillT4_holdsPselFP (v : Word) : (s.fillT4 v).holdsPselFP = s.holdsPselFP := rfl
@[simp] theorem State.fillT4_holdsPselRD (v : Word) : (s.fillT4 v).holdsPselRD = s.holdsPselRD := rfl
@[simp] theorem State.fillT4_mem (v : Word) : (s.fillT4 v).mem = s.mem := rfl
@[simp] theorem State.fillT4_cfg (v : Word) : (s.fillT4 v).cfg = s.cfg := rfl
@[simp] theorem State.fillT4_inputs (v : Word) : (s.fillT4 v).inputs = s.inputs := rfl
@[simp] theorem State.fillT4_responses (v : Word) : (s.fillT4 v).responses = s.responses := rfl

@[simp] theorem State.fillT8_t4 (v : Word) : (s.fillT8 v).t4 = s.t4 := rfl
@[simp] theorem State.fillT8_t8 (v : Word) : (s.fillT8 v).t8 = Vector.replicate t8Words v := rfl
@[simp] theorem State.fillT8_pselFP (v : Word) : (s.fillT8 v).pselFP = s.pselFP := rfl
@[simp] theorem State.fillT8_pselRD (v : Word) : (s.fillT8 v).pselRD = s.pselRD := rfl
@[simp] theorem State.fillT8_holdsT4 (v : Word) : (s.fillT8 v).holdsT4 = s.holdsT4 := rfl
@[simp] theorem State.fillT8_holdsT8 (v : Word) : (s.fillT8 v).holdsT8 = true := rfl
@[simp] theorem State.fillT8_holdsPselFP (v : Word) : (s.fillT8 v).holdsPselFP = s.holdsPselFP := rfl
@[simp] theorem State.fillT8_holdsPselRD (v : Word) : (s.fillT8 v).holdsPselRD = s.holdsPselRD := rfl
@[simp] theorem State.fillT8_mem (v : Word) : (s.fillT8 v).mem = s.mem := rfl
@[simp] theorem State.fillT8_cfg (v : Word) : (s.fillT8 v).cfg = s.cfg := rfl
@[simp] theorem State.fillT8_inputs (v : Word) : (s.fillT8 v).inputs = s.inputs := rfl
@[simp] theorem State.fillT8_responses (v : Word) : (s.fillT8 v).responses = s.responses := rfl

@[simp] theorem State.setWordT4_t4 (k : Nat) (v : Word) : (s.setWordT4 k v).t4 = s.t4.setIfInBounds k v := rfl
@[simp] theorem State.setWordT4_t8 (k : Nat) (v : Word) : (s.setWordT4 k v).t8 = s.t8 := rfl
@[simp] theorem State.setWordT4_pselFP (k : Nat) (v : Word) : (s.setWordT4 k v).pselFP = s.pselFP := rfl
@[simp] theorem State.setWordT4_pselRD (k : Nat) (v : Word) : (s.setWordT4 k v).pselRD = s.pselRD := rfl
@[simp] theorem State.setWordT4_holdsT4 (k : Nat) (v : Word) : (s.setWordT4 k v).holdsT4 = s.holdsT4 := rfl
@[simp] theorem State.setWordT4_holdsT8 (k : Nat) (v : Word) : (s.setWordT4 k v).holdsT8 = s.holdsT8 := rfl
@[simp] theorem State.setWordT4_holdsPselFP (k : Nat) (v : Word) : (s.setWordT4 k v).holdsPselFP = s.holdsPselFP := rfl
@[simp] theorem State.setWordT4_holdsPselRD (k : Nat) (v : Word) : (s.setWordT4 k v).holdsPselRD = s.holdsPselRD := rfl
@[simp] theorem State.setWordT4_mem (k : Nat) (v : Word) : (s.setWordT4 k v).mem = s.mem := rfl
@[simp] theorem State.setWordT4_cfg (k : Nat) (v : Word) : (s.setWordT4 k v).cfg = s.cfg := rfl
@[simp] theorem State.setWordT4_inputs (k : Nat) (v : Word) : (s.setWordT4 k v).inputs = s.inputs := rfl
@[simp] theorem State.setWordT4_responses (k : Nat) (v : Word) : (s.setWordT4 k v).responses = s.responses := rfl

@[simp] theorem State.setWordT8_t4 (k : Nat) (v : Word) : (s.setWordT8 k v).t4 = s.t4 := rfl
@[simp] theorem State.setWordT8_t8 (k : Nat) (v : Word) : (s.setWordT8 k v).t8 = s.t8.setIfInBounds k v := rfl
@[simp] theorem State.setWordT8_pselFP (k : Nat) (v : Word) : (s.setWordT8 k v).pselFP = s.pselFP := rfl
@[simp] theorem State.setWordT8_pselRD (k : Nat) (v : Word) : (s.setWordT8 k v).pselRD = s.pselRD := rfl
@[simp] theorem State.setWordT8_holdsT4 (k : Nat) (v : Word) : (s.setWordT8 k v).holdsT4 = s.holdsT4 := rfl
@[simp] theorem State.setWordT8_holdsT8 (k : Nat) (v : Word) : (s.setWordT8 k v).holdsT8 = s.holdsT8 := rfl
@[simp] theorem State.setWordT8_holdsPselFP (k : Nat) (v : Word) : (s.setWordT8 k v).holdsPselFP = s.holdsPselFP := rfl
@[simp] theorem State.setWordT8_holdsPselRD (k : Nat) (v : Word) : (s.setWordT8 k v).holdsPselRD = s.holdsPselRD := rfl
@[simp] theorem State.setWordT8_mem (k : Nat) (v : Word) : (s.setWordT8 k v).mem = s.mem := rfl
@[simp] theorem State.setWordT8_cfg (k : Nat) (v : Word) : (s.setWordT8 k v).cfg = s.cfg := rfl
@[simp] theorem State.setWordT8_inputs (k : Nat) (v : Word) : (s.setWordT8 k v).inputs = s.inputs := rfl
@[simp] theorem State.setWordT8_responses (k : Nat) (v : Word) : (s.setWordT8 k v).responses = s.responses := rfl

@[simp] theorem State.selectPageFP_t4 (p : Page) : (s.selectPageFP p).t4 = s.t4 := rfl
@[simp] theorem State.selectPageFP_t8 (p : Page) : (s.selectPageFP p).t8 = s.t8 := rfl
@[simp] theorem State.selectPageFP_pselFP (p : Page) : (s.selectPageFP p).pselFP = p := rfl
@[simp] theorem State.selectPageFP_pselRD (p : Page) : (s.selectPageFP p).pselRD = s.pselRD := rfl
@[simp] theorem State.selectPageFP_holdsT4 (p : Page) : (s.selectPageFP p).holdsT4 = s.holdsT4 := rfl
@[simp] theorem State.selectPageFP_holdsT8 (p : Page) : (s.selectPageFP p).holdsT8 = s.holdsT8 := rfl
@[simp] theorem State.selectPageFP_holdsPselFP (p : Page) : (s.selectPageFP p).holdsPselFP = true := rfl
@[simp] theorem State.selectPageFP_holdsPselRD (p : Page) : (s.selectPageFP p).holdsPselRD = s.holdsPselRD := rfl
@[simp] theorem State.selectPageFP_mem (p : Page) : (s.selectPageFP p).mem = s.mem := rfl
@[simp] theorem State.selectPageFP_cfg (p : Page) : (s.selectPageFP p).cfg = s.cfg := rfl
@[simp] theorem State.selectPageFP_inputs (p : Page) : (s.selectPageFP p).inputs = s.inputs := rfl
@[simp] theorem State.selectPageFP_responses (p : Page) : (s.selectPageFP p).responses = s.responses := rfl

@[simp] theorem State.selectPageRD_t4 (p : Page) : (s.selectPageRD p).t4 = s.t4 := rfl
@[simp] theorem State.selectPageRD_t8 (p : Page) : (s.selectPageRD p).t8 = s.t8 := rfl
@[simp] theorem State.selectPageRD_pselFP (p : Page) : (s.selectPageRD p).pselFP = s.pselFP := rfl
@[simp] theorem State.selectPageRD_pselRD (p : Page) : (s.selectPageRD p).pselRD = p := rfl
@[simp] theorem State.selectPageRD_holdsT4 (p : Page) : (s.selectPageRD p).holdsT4 = s.holdsT4 := rfl
@[simp] theorem State.selectPageRD_holdsT8 (p : Page) : (s.selectPageRD p).holdsT8 = s.holdsT8 := rfl
@[simp] theorem State.selectPageRD_holdsPselFP (p : Page) : (s.selectPageRD p).holdsPselFP = s.holdsPselFP := rfl
@[simp] theorem State.selectPageRD_holdsPselRD (p : Page) : (s.selectPageRD p).holdsPselRD = true := rfl
@[simp] theorem State.selectPageRD_mem (p : Page) : (s.selectPageRD p).mem = s.mem := rfl
@[simp] theorem State.selectPageRD_cfg (p : Page) : (s.selectPageRD p).cfg = s.cfg := rfl
@[simp] theorem State.selectPageRD_inputs (p : Page) : (s.selectPageRD p).inputs = s.inputs := rfl
@[simp] theorem State.selectPageRD_responses (p : Page) : (s.selectPageRD p).responses = s.responses := rfl

@[simp] theorem State.respond_t4 (v : Word) : (s.respond v).t4 = s.t4 := rfl
@[simp] theorem State.respond_t8 (v : Word) : (s.respond v).t8 = s.t8 := rfl
@[simp] theorem State.respond_pselFP (v : Word) : (s.respond v).pselFP = s.pselFP := rfl
@[simp] theorem State.respond_pselRD (v : Word) : (s.respond v).pselRD = s.pselRD := rfl
@[simp] theorem State.respond_holdsT4 (v : Word) : (s.respond v).holdsT4 = s.holdsT4 := rfl
@[simp] theorem State.respond_holdsT8 (v : Word) : (s.respond v).holdsT8 = s.holdsT8 := rfl
@[simp] theorem State.respond_holdsPselFP (v : Word) : (s.respond v).holdsPselFP = s.holdsPselFP := rfl
@[simp] theorem State.respond_holdsPselRD (v : Word) : (s.respond v).holdsPselRD = s.holdsPselRD := rfl
@[simp] theorem State.respond_mem (v : Word) : (s.respond v).mem = s.mem := rfl
@[simp] theorem State.respond_cfg (v : Word) : (s.respond v).cfg = s.cfg := rfl
@[simp] theorem State.respond_inputs (v : Word) : (s.respond v).inputs = s.inputs := rfl
@[simp] theorem State.respond_responses (v : Word) : (s.respond v).responses = s.responses ++ [v] := rfl

@[simp] theorem State.setInputs_t4 (l : List HostInput) : (s.setInputs l).t4 = s.t4 := rfl
@[simp] theorem State.setInputs_t8 (l : List HostInput) : (s.setInputs l).t8 = s.t8 := rfl
@[simp] theorem State.setInputs_pselFP (l : List HostInput) : (s.setInputs l).pselFP = s.pselFP := rfl
@[simp] theorem State.setInputs_pselRD (l : List HostInput) : (s.setInputs l).pselRD = s.pselRD := rfl
@[simp] theorem State.setInputs_holdsT4 (l : List HostInput) : (s.setInputs l).holdsT4 = s.holdsT4 := rfl
@[simp] theorem State.setInputs_holdsT8 (l : List HostInput) : (s.setInputs l).holdsT8 = s.holdsT8 := rfl
@[simp] theorem State.setInputs_holdsPselFP (l : List HostInput) : (s.setInputs l).holdsPselFP = s.holdsPselFP := rfl
@[simp] theorem State.setInputs_holdsPselRD (l : List HostInput) : (s.setInputs l).holdsPselRD = s.holdsPselRD := rfl
@[simp] theorem State.setInputs_mem (l : List HostInput) : (s.setInputs l).mem = s.mem := rfl
@[simp] theorem State.setInputs_cfg (l : List HostInput) : (s.setInputs l).cfg = s.cfg := rfl
@[simp] theorem State.setInputs_inputs (l : List HostInput) : (s.setInputs l).inputs = l := rfl
@[simp] theorem State.setInputs_responses (l : List HostInput) : (s.setInputs l).responses = s.responses := rfl

@[simp] theorem State.applyReset_t4 : (s.applyReset).t4 = resetT4 := rfl
@[simp] theorem State.applyReset_t8 : (s.applyReset).t8 = resetT8 := rfl
@[simp] theorem State.applyReset_pselFP : (s.applyReset).pselFP = resetPage := rfl
@[simp] theorem State.applyReset_pselRD : (s.applyReset).pselRD = resetPage := rfl
@[simp] theorem State.applyReset_holdsT4 : (s.applyReset).holdsT4 = false := rfl
@[simp] theorem State.applyReset_holdsT8 : (s.applyReset).holdsT8 = false := rfl
@[simp] theorem State.applyReset_holdsPselFP : (s.applyReset).holdsPselFP = false := rfl
@[simp] theorem State.applyReset_holdsPselRD : (s.applyReset).holdsPselRD = false := rfl
@[simp] theorem State.applyReset_mem : (s.applyReset).mem = s.mem := rfl
@[simp] theorem State.applyReset_cfg : (s.applyReset).cfg = s.cfg := rfl
@[simp] theorem State.applyReset_inputs : (s.applyReset).inputs = s.inputs := rfl
@[simp] theorem State.applyReset_responses : (s.applyReset).responses = s.responses := rfl

end Sys2Proof.Machine
end

