-- ==== Sys2Proof/Laws/Exec.lean ====
section
/-! SUPPORT. What each shared operation can do, once; what a command can do (`exec_cases`); what a step
can do (`step_cases`). -/

namespace Sys2Proof.Machine

/-! ## The shared operations -/

theorem withPageFP_held {s : State} (h : s.holdsPselFP = true) (k : Page → Result) :
    withPageFP s k = k s.pselFP := by simp [withPageFP, h]

theorem withPageRD_held {s : State} (h : s.holdsPselRD = true) (k : Page → Result) :
    withPageRD s k = k s.pselRD := by simp [withPageRD, h]

theorem withBufferT4_held {s : State} (h : s.holdsT4 = true) (k : Vector Word t4Words → Result) :
    withBufferT4 s k = k s.t4 := by simp [withBufferT4, h]

theorem withBufferT8_held {s : State} (h : s.holdsT8 = true) (k : Vector Word t8Words → Result) :
    withBufferT8 s k = k s.t8 := by simp [withBufferT8, h]

theorem withPageFP_next {s t : State} {k : Page → Result} (h : withPageFP s k = .next t) :
    s.holdsPselFP = true ∧ k s.pselFP = .next t := by
  unfold withPageFP at h; split at h <;> simp_all

theorem withPageRD_next {s t : State} {k : Page → Result} (h : withPageRD s k = .next t) :
    s.holdsPselRD = true ∧ k s.pselRD = .next t := by
  unfold withPageRD at h; split at h <;> simp_all

theorem withBufferT4_next {s t : State} {k : Vector Word t4Words → Result}
    (h : withBufferT4 s k = .next t) : s.holdsT4 = true ∧ k s.t4 = .next t := by
  unfold withBufferT4 at h; split at h <;> simp_all

theorem withBufferT8_next {s t : State} {k : Vector Word t8Words → Result}
    (h : withBufferT8 s k = .next t) : s.holdsT8 = true ∧ k s.t8 = .next t := by
  unfold withBufferT8 at h; split at h <;> simp_all

theorem drawBitmap_in {base w h : Nat} {n : CellSize} {x y : Coord} {v : Half} {s : State}
    (hb : InBounds w h x y) :
    drawBitmap base w h n x y v s = .next (s.setMem (memWrite s.cfg.byteOrder s.mem (cellAddr base w n x y) n v)) := by
  simp only [drawBitmap, if_pos hb]

theorem drawBitmap_out {base w h : Nat} {n : CellSize} {x y : Coord} {v : Half} {s : State}
    (hb : ¬ InBounds w h x y) : drawBitmap base w h n x y v s = .next s := by
  simp only [drawBitmap, if_neg hb]

theorem drawTile4_in {x y : Coord} {idx : Index} {t : Vector Word t4Words} {s : State}
    (hb : InBounds tileSide tileSide x y) :
    drawTile4 x y idx t s = .next (s.setWordT4 (widx4 (slot x y)) (drawnWord4 t (slot x y) idx)) := by
  simp only [drawTile4, if_pos hb]

theorem drawTile4_out {x y : Coord} {idx : Index} {t : Vector Word t4Words} {s : State}
    (hb : ¬ InBounds tileSide tileSide x y) : drawTile4 x y idx t s = .next s := by
  simp only [drawTile4, if_neg hb]

theorem drawTile8_in {x y : Coord} {idx : Index} {t : Vector Word t8Words} {s : State}
    (hb : InBounds tileSide tileSide x y) :
    drawTile8 x y idx t s = .next (s.setWordT8 (widx8 (slot x y)) (drawnWord8 t (slot x y) idx)) := by
  simp only [drawTile8, if_pos hb]

theorem drawTile8_out {x y : Coord} {idx : Index} {t : Vector Word t8Words} {s : State}
    (hb : ¬ InBounds tileSide tileSide x y) : drawTile8 x y idx t s = .next s := by
  simp only [drawTile8, if_neg hb]

/-! ## A field replaced in a tile word -/

/-- Bit by bit: inside the field the new bits, outside it the old ones (R187, R207). -/
theorem replaceField_getElem {old mask field : Word} {off : Nat} {j : Nat} (hj : j < 32) :
    (replaceField old mask field off)[j] =
      ((old[j] && !(decide (off ≤ j) && mask.getLsbD (j - off))) ||
        (decide (off ≤ j) && field.getLsbD (j - off))) := by
  rw [replaceField, BitVec.getElem_or, BitVec.getElem_and, BitVec.getElem_not, BitVec.getElem_shiftLeft,
    BitVec.getElem_shiftLeft]
  by_cases h : j < off <;> simp [h] <;> grind

/-! ## What a command can do -/

/-- The outcome of a bitmap draw: nothing, or one cell write in bounds. -/
theorem drawBitmap_cases {base w h : Nat} {n : CellSize} {x y : Coord} {v : Half} {s t : State}
    (e : drawBitmap base w h n x y v s = .next t) :
    (¬ InBounds w h x y ∧ t = s) ∨
    (InBounds w h x y ∧ t = s.setMem (memWrite s.cfg.byteOrder s.mem (cellAddr base w n x y) n v)) := by
  by_cases hb : InBounds w h x y
  · rw [drawBitmap_in hb] at e; exact .inr ⟨hb, by simpa using e.symm⟩
  · rw [drawBitmap_out hb] at e; exact .inl ⟨hb, by simpa using e.symm⟩

theorem drawTile4_cases {x y : Coord} {idx : Index} {b : Vector Word t4Words} {s t : State}
    (e : drawTile4 x y idx b s = .next t) :
    (¬ InBounds tileSide tileSide x y ∧ t = s) ∨
    (InBounds tileSide tileSide x y ∧
      t = s.setWordT4 (widx4 (slot x y)) (drawnWord4 b (slot x y) idx)) := by
  by_cases hb : InBounds tileSide tileSide x y
  · rw [drawTile4_in hb] at e; exact .inr ⟨hb, by simpa using e.symm⟩
  · rw [drawTile4_out hb] at e; exact .inl ⟨hb, by simpa using e.symm⟩

theorem drawTile8_cases {x y : Coord} {idx : Index} {b : Vector Word t8Words} {s t : State}
    (e : drawTile8 x y idx b s = .next t) :
    (¬ InBounds tileSide tileSide x y ∧ t = s) ∨
    (InBounds tileSide tileSide x y ∧
      t = s.setWordT8 (widx8 (slot x y)) (drawnWord8 b (slot x y) idx)) := by
  by_cases hb : InBounds tileSide tileSide x y
  · rw [drawTile8_in hb] at e; exact .inr ⟨hb, by simpa using e.symm⟩
  · rw [drawTile8_out hb] at e; exact .inl ⟨hb, by simpa using e.symm⟩

/-- The ways in which a command that answers a next state has changed the state. -/
inductive Change (i : Instr) (s : State) : State → Prop where
  /-- An out-of-bounds `DRAW` (R221). -/
  | nothing (draws : Draws i) : Change i s s
  /-- An in-bounds bitmap `DRAW`: one cell, wholly where `MayWrite` allows (R35, R60). -/
  | cell (addr : Nat) (n : CellSize) (v : Half) (draws : Draws i)
      (inside : ∀ a, addr ≤ a → a < addr + n.bytes → MayWrite i s a) :
      Change i s (s.setMem (memWrite s.cfg.byteOrder s.mem addr n v))
  /-- A bitmap `CLEAR`: the region of the surface page (R61). -/
  | region (base count : Nat) (n : CellSize) (v : Half) (clears : ClearsBitmap i)
      (inside : ∀ a, base ≤ a → a < base + n.bytes * count → MayWrite i s a) :
      Change i s (s.setMem (memFill s.cfg.byteOrder s.mem base count n v))
  /-- `SIZE`: one response (R86). -/
  | response (v : Word) (responds : Responds i) (size : IsSizeWord s.cfg v) : Change i s (s.respond v)
  /-- `SELECT.FP` (R141). -/
  | pageFP (p : Page) (isSelect : i = .selectFP p) : Change i s (s.selectPageFP p)
  /-- `SELECT.RD` (R161). -/
  | pageRD (p : Page) (isSelect : i = .selectRD p) : Change i s (s.selectPageRD p)
  /-- `NEW.T4`, `CLEAR.T4` (R181, R183). -/
  | tile4 (v : Word) (fills : FillsT4 i) : Change i s (s.fillT4 v)
  /-- `NEW.T8`, `CLEAR.T8` (R201, R203). -/
  | tile8 (v : Word) (fills : FillsT8 i) : Change i s (s.fillT8 v)
  /-- An in-bounds `DRAW.T4`: one word of a buffer that holds a value (R182). -/
  | word4 (k : Nat) (v : Word) (held : s.holdsT4 = true) (draws : Draws i) (writes : MayWriteWordT4 i k) :
      Change i s (s.setWordT4 k v)
  /-- An in-bounds `DRAW.T8` (R202). -/
  | word8 (k : Nat) (v : Word) (held : s.holdsT8 = true) (draws : Draws i) (writes : MayWriteWordT8 i k) :
      Change i s (s.setWordT8 k v)

/-- The bytes of the cell of an in-bounds coordinate lie in the region (R44 (a)). -/
theorem inCell_in_region {base w h : Nat} {n : CellSize} {x y : Coord} {a : Nat} (hb : InBounds w h x y)
    (ha : InCell (cellAddr base w n x y) n a) : InRegion base w h n a :=
  ⟨(cellAddr_in_region hb).1.trans ha.1, ha.2.trans_le (cellAddr_in_region hb).2⟩

/-- Every byte a command may write lies in the region of its surface page. -/
theorem mayWrite_in_region {i : Instr} {s : State} {a : Nat} (h : MayWrite i s a) :
    InRegionFD s.cfg a ∨ InRegionFP s.cfg s.pselFP a ∨ InRegionRD s.cfg s.pselRD a := by
  cases i <;> simp only [MayWrite] at h
  case drawFD => exact .inl (inCell_in_region h.1 h.2)
  case drawFP => exact .inr (.inl (inCell_in_region h.1 h.2))
  case drawRD => exact .inr (.inr (inCell_in_region h.1 h.2))
  case clearFD => exact .inl h
  case clearFP => exact .inr (.inl h)
  case clearRD => exact .inr (.inr h)

theorem change_of_drawBitmap {i : Instr} {base w h : Nat} {n : CellSize} {x y : Coord} {v : Half}
    {s t : State} (hi : Draws i)
    (inside : ∀ a, InBounds w h x y ∧ InCell (cellAddr base w n x y) n a → MayWrite i s a)
    (e : drawBitmap base w h n x y v s = .next t) : Change i s t := by
  rcases drawBitmap_cases e with ⟨-, rfl⟩ | ⟨hb, rfl⟩
  · exact .nothing hi
  · exact .cell _ n v hi fun a ha ha' => inside a ⟨hb, ha, ha'⟩

theorem change_of_clearBitmap {i : Instr} {base w h : Nat} {n : CellSize} {v : Half} {s t : State}
    (hi : ClearsBitmap i) (inside : ∀ a, InRegion base w h n a → MayWrite i s a)
    (e : clearBitmap base w h n v s = .next t) : Change i s t := by
  obtain rfl : s.setMem (memFill s.cfg.byteOrder s.mem base (w * h) n v) = t := by simpa [clearBitmap] using e
  exact .region base (w * h) n v hi fun a ha ha' => inside a ⟨ha, by rw [Nat.mul_comm]; exact ha'⟩

theorem change_of_answerSize {i : Instr} {w h : Nat} {s t : State} (hi : Responds i)
    (hv : IsSizeWord s.cfg (sizeWord w h)) (e : answerSize w h s = .next t) : Change i s t := by
  obtain rfl : s.respond (sizeWord w h) = t := by simpa [answerSize] using e
  exact .response _ hi hv

/-- Everything a command can do when it answers a next state. -/
theorem exec_cases {i : Instr} {s t : State} (e : exec i s = .next t) : Change i s t := by
  cases i with
  | drawFD x y r g b => exact change_of_drawBitmap trivial (fun _ h => h) e
  | clearFD r g b => exact change_of_clearBitmap trivial (fun _ h => h) e
  | sizeFD => exact change_of_answerSize trivial (.inl rfl) e
  | drawFP x y idx =>
    rw [exec, execDrawFP] at e
    exact change_of_drawBitmap trivial (fun _ h => h) (withPageFP_next e).2
  | clearFP idx =>
    rw [exec, execClearFP] at e
    exact change_of_clearBitmap trivial (fun _ h => h) (withPageFP_next e).2
  | sizeFP => exact change_of_answerSize trivial (.inl rfl) e
  | selectFP p =>
    obtain rfl : s.selectPageFP p = t := by simpa [exec, execSelectFP] using e
    exact .pageFP p rfl
  | drawRD x y r g b =>
    rw [exec, execDrawRD] at e
    exact change_of_drawBitmap trivial (fun _ h => h) (withPageRD_next e).2
  | clearRD r g b =>
    rw [exec, execClearRD] at e
    exact change_of_clearBitmap trivial (fun _ h => h) (withPageRD_next e).2
  | sizeRD => exact change_of_answerSize trivial (.inr (.inl rfl)) e
  | selectRD p =>
    obtain rfl : s.selectPageRD p = t := by simpa [exec, execSelectRD] using e
    exact .pageRD p rfl
  | drawT4 x y idx =>
    rw [exec, execDrawT4] at e
    have ⟨held, e⟩ := withBufferT4_next e
    rcases drawTile4_cases e with ⟨-, rfl⟩ | ⟨hb, rfl⟩
    · exact .nothing trivial
    · exact .word4 _ _ held trivial ⟨hb, rfl⟩
  | clearT4 idx =>
    obtain rfl : s.fillT4 (rep4 (trunc4 idx)) = t := by simpa [exec, execClearT4, fillTile4] using e
    exact .tile4 _ trivial
  | sizeT4 => exact change_of_answerSize trivial (.inr (.inr rfl)) e
  | newT4 idx =>
    obtain rfl : s.fillT4 (rep4 (trunc4 idx)) = t := by simpa [exec, execNewT4, fillTile4] using e
    exact .tile4 _ trivial
  | drawT8 x y idx =>
    rw [exec, execDrawT8] at e
    have ⟨held, e⟩ := withBufferT8_next e
    rcases drawTile8_cases e with ⟨-, rfl⟩ | ⟨hb, rfl⟩
    · exact .nothing trivial
    · exact .word8 _ _ held trivial ⟨hb, rfl⟩
  | clearT8 idx =>
    obtain rfl : s.fillT8 (rep8 (native8 idx)) = t := by simpa [exec, execClearT8, fillTile8] using e
    exact .tile8 _ trivial
  | sizeT8 => exact change_of_answerSize trivial (.inr (.inr rfl)) e
  | newT8 idx =>
    obtain rfl : s.fillT8 (rep8 (native8 idx)) = t := by simpa [exec, execNewT8, fillTile8] using e
    exact .tile8 _ trivial

/-! ## What a step can do -/

theorem guardConfig_wf {s : State} (h : s.cfg.WF) (k : Result) : guardConfig s k = k := if_pos h

theorem guardConfig_next {s t : State} {k : Result} (h : guardConfig s k = .next t) :
    s.cfg.WF ∧ k = .next t := by
  unfold guardConfig at h
  split at h
  · next hc => exact ⟨hc, h⟩
  · simp at h

theorem takeInput_some {s s' : State} {input : HostInput} (h : s.takeInput = some (input, s')) :
    ∃ rest, s.inputs = input :: rest ∧ s' = s.setInputs rest := by
  unfold State.takeInput at h
  split at h
  · simp at h
  · next i rest e => simp only [Option.some.injEq, Prod.mk.injEq] at h; exact ⟨rest, by rw [e, h.1], h.2.symm⟩

/-- Everything a step that answers a next state can have done. -/
theorem step_cases {s t : State} (h : step s = .next t) :
    s.cfg.WF ∧ ∃ rest,
      (s.inputs = .reset :: rest ∧ t = (s.setInputs rest).applyReset) ∨
      (∃ cmd i, s.inputs = .command cmd :: rest ∧ decode cmd = .command i ∧
        exec i (s.setInputs rest) = .next t) := by
  have ⟨hc, h⟩ := guardConfig_next h
  refine ⟨hc, ?_⟩
  split at h
  · simp at h
  · next input s' e =>
    obtain ⟨rest, he, rfl⟩ := takeInput_some e
    refine ⟨rest, ?_⟩
    cases input with
    | reset => exact .inl ⟨he, by simpa [runInput] using h.symm⟩
    | command cmd =>
      simp only [runInput] at h
      split at h
      · simp at h
      · next i hd => exact .inr ⟨cmd, i, he, hd, h⟩

end Sys2Proof.Machine
end

