-- ==== Sys2Proof/Laws/PerInstr.lean ====
section
/-! SUPPORT. Per-command lemmas. Family `TableRow`: the encoder puts a command under the opcode byte and
the fixed bits of a row of Table O. -/

namespace Sys2Proof

theorem fixed_of_DD (opc : BitVec 8) (x y : Coord) (r g b : Channel) :
    commandWord (opcodeWord opc) x y (colourWord r g b) &&& formatMask .DD = opc.setWidth 128 := by
  rw [formatMask, commandWord_and, opcodeWord_and_ones, colourWord_and_mask, ← commandWord_opcode,
    show x &&& 0 = 0 from BitVec.and_zero, show y &&& 0 = 0 from BitVec.and_zero]

theorem fixed_of_DP (opc : BitVec 8) (x y : Coord) (idx : Index) :
    commandWord (opcodeWord opc) x y (indexWord idx) &&& formatMask .DP = opc.setWidth 128 := by
  rw [formatMask, commandWord_and, opcodeWord_and_ones, indexWord_and_mask, ← commandWord_opcode,
    show x &&& 0 = 0 from BitVec.and_zero, show y &&& 0 = 0 from BitVec.and_zero]

theorem fixed_of_CD (opc : BitVec 8) (r g b : Channel) :
    commandWord (opcodeWord opc) 0 0 (colourWord r g b) &&& formatMask .CD = opc.setWidth 128 := by
  rw [formatMask, commandWord_and, opcodeWord_and_ones, colourWord_and_mask, ← commandWord_opcode]; rfl

theorem fixed_of_CP (opc : BitVec 8) (idx : Index) :
    commandWord (opcodeWord opc) 0 0 (indexWord idx) &&& formatMask .CP = opc.setWidth 128 := by
  rw [formatMask, commandWord_and, opcodeWord_and_ones, indexWord_and_mask, ← commandWord_opcode]; rfl

theorem fixed_of_SP (opc : BitVec 8) (p : Page) :
    commandWord (opcodeWord opc) 0 0 (pageWord p) &&& formatMask .SP = opc.setWidth 128 := by
  rw [formatMask, commandWord_and, opcodeWord_and_ones, pageWord_and_mask, ← commandWord_opcode]; rfl

theorem fixed_of_SZ (opc : BitVec 8) :
    commandWord (opcodeWord opc) 0 0 0 &&& formatMask .SZ = opc.setWidth 128 := by
  rw [formatMask, commandWord_and, opcodeWord_and_ones, ← commandWord_opcode]; rfl

end Sys2Proof

namespace Sys2Proof.Laws.TableRow

/-- The word of a command has an opcode byte of Table O, and its fixed bits are the row's (R74, R76). -/
def Statement (i : Instr) : Prop :=
  ∃ row, opcodeRow (opcodeByte (encode i)) = some row ∧
    encode i &&& formatMask row.format = row.opcode.setWidth 128

/-- The row of an opcode byte that a word carries, with its fixed bits. -/
theorem statement_of_row {i : Instr} {opc : BitVec 8} {w1 w2 w3 : Word} {row : OpRow}
    (he : encode i = commandWord (opcodeWord opc) w1 w2 w3) (hr : opcodeRow opc = some row)
    (hf : commandWord (opcodeWord opc) w1 w2 w3 &&& formatMask row.format = row.opcode.setWidth 128) :
    Statement i :=
  ⟨row, by rw [he, opcodeByte_commandWord, hr], by rw [he, hf]⟩

theorem drawFD (x y : Coord) (r g b : Channel) : Statement (.drawFD x y r g b) := statement_of_row rfl rfl (fixed_of_DD _ x y r g b)
theorem clearFD (r g b : Channel) : Statement (.clearFD r g b) := statement_of_row rfl rfl (fixed_of_CD _ r g b)
theorem sizeFD : Statement .sizeFD := statement_of_row rfl rfl (fixed_of_SZ _)
theorem drawFP (x y : Coord) (idx : Index) : Statement (.drawFP x y idx) := statement_of_row rfl rfl (fixed_of_DP _ x y idx)
theorem clearFP (idx : Index) : Statement (.clearFP idx) := statement_of_row rfl rfl (fixed_of_CP _ idx)
theorem sizeFP : Statement .sizeFP := statement_of_row rfl rfl (fixed_of_SZ _)
theorem selectFP (page : Page) : Statement (.selectFP page) := statement_of_row rfl rfl (fixed_of_SP _ page)
theorem drawRD (x y : Coord) (r g b : Channel) : Statement (.drawRD x y r g b) := statement_of_row rfl rfl (fixed_of_DD _ x y r g b)
theorem clearRD (r g b : Channel) : Statement (.clearRD r g b) := statement_of_row rfl rfl (fixed_of_CD _ r g b)
theorem sizeRD : Statement .sizeRD := statement_of_row rfl rfl (fixed_of_SZ _)
theorem selectRD (page : Page) : Statement (.selectRD page) := statement_of_row rfl rfl (fixed_of_SP _ page)
theorem drawT4 (x y : Coord) (idx : Index) : Statement (.drawT4 x y idx) := statement_of_row rfl rfl (fixed_of_DP _ x y idx)
theorem clearT4 (idx : Index) : Statement (.clearT4 idx) := statement_of_row rfl rfl (fixed_of_CP _ idx)
theorem sizeT4 : Statement .sizeT4 := statement_of_row rfl rfl (fixed_of_SZ _)
theorem newT4 (idx : Index) : Statement (.newT4 idx) := statement_of_row rfl rfl (fixed_of_CP _ idx)
theorem drawT8 (x y : Coord) (idx : Index) : Statement (.drawT8 x y idx) := statement_of_row rfl rfl (fixed_of_DP _ x y idx)
theorem clearT8 (idx : Index) : Statement (.clearT8 idx) := statement_of_row rfl rfl (fixed_of_CP _ idx)
theorem sizeT8 : Statement .sizeT8 := statement_of_row rfl rfl (fixed_of_SZ _)
theorem newT8 (idx : Index) : Statement (.newT8 idx) := statement_of_row rfl rfl (fixed_of_CP _ idx)

end Sys2Proof.Laws.TableRow
end

