-- ==== Sys2Proof/Tests/Slice0.lean ====
section
/-! SUPPORT. Tests. The expected values are those of the spec: 95_test_vectors.md V1 to V8 and Programs 1 to
7, and the examples of the rules named; the witnesses at the end meet the hypotheses of the statements in
Certificates/Slice0/Obligations.lean. -/

namespace Sys2Proof.Tests

open Sys2Proof Sys2Proof.Machine

/-! ## States the tests start from -/

/-- A well-formed configuration with few cells, so that a whole surface can be written out; the channels in
the order blue, green, red. -/
def small : Config where
  coordW := 32
  addrW := 16
  byteOrder := .littleEndian
  wFull := 2
  hFull := 2
  wRed := 3
  hRed := 1
  baseFD := 16
  baseFP0 := 16
  baseFP1 := 20
  baseRD0 := 16
  baseRD1 := 22
  chPosR := 10
  chPosG := 5
  chPosB := 0

/-- Table P, every element holding a value: both pages `Page1`, both buffers filled. -/
def ready : State :=
  { State.reset with
    t4 := Vector.replicate 8 0x33333333, t8 := Vector.replicate 16 0x03030303,
    pselFP := .page1, pselRD := .page1,
    holdsT4 := true, holdsT8 := true, holdsPselFP := true, holdsPselRD := true }

/-- `ready` with the small configuration and four known bytes. -/
def readySmall : State :=
  { ready with cfg := small, mem := [(15, 0xA5), (16, 0x11), (17, 0x22), (40, 0x5A)] }

/-- The state a command leads to, `State.reset` where it stops. -/
def after (r : Result) : State :=
  match r with
  | .next t => t
  | .fault _ => State.reset
  | .refused _ => State.reset

/-- An outcome as data that can be compared. -/
def view (r : Result) : State ⊕ Fault ⊕ Refusal :=
  match r with
  | .next t => .inl t
  | .fault f => .inr (.inl f)
  | .refused why => .inr (.inr why)

theorem eq_of_view {r r' : Result} (h : view r = view r') : r = r' := by
  cases r <;> cases r' <;> simp_all [view]

/-- Whether a command or step answers a next state. -/
def completes (r : Result) : Bool := (view r).isLeft

theorem next_after {r : Result} (h : completes r = true) : r = .next (after r) := by
  cases r <;> simp_all [completes, view, after]

/-- The state with one command word to come. -/
def presenting (w : CommandWord) (s : State) : State := { s with inputs := [.command w] }

/-! ## Decoding (V2) -/

theorem test_decode_FD :
    decode (commandWord 0x00000011 0x00000002 0x00000001 0x0000001F) = .command (.drawFD 2 1 31 0 0) ∧
    decode 0x001F1F1FFFFFFFFFFFFFFFFF00000011 = .command (.drawFD (-1) (-1) 31 31 31) ∧
    decode 0x00030201000000000000000000000012 = .command (.clearFD 1 2 3) ∧
    decode 0x00000000000000000000000000000013 = .command .sizeFD := by decide

theorem test_decode_FP :
    decode 0x0000002A000000020000000300000021 = .command (.drawFP 3 2 0x2A) ∧
    decode 0x00000007000000000000000000000022 = .command (.clearFP 7) ∧
    decode 0x00000000000000000000000000000023 = .command .sizeFP ∧
    decode 0x00000001000000000000000000000024 = .command (.selectFP .page1) := by decide

theorem test_decode_RD :
    decode 0x00001F00000000010000000100000031 = .command (.drawRD 1 1 0 31 0) ∧
    decode 0x001F1F1F000000000000000000000032 = .command (.clearRD 31 31 31) ∧
    decode 0x00000000000000000000000000000033 = .command .sizeRD ∧
    decode 0x00000000000000000000000000000034 = .command (.selectRD .page0) := by decide

theorem test_decode_T4 :
    decode 0x00000009000000000000000000000041 = .command (.drawT4 0 0 9) ∧
    decode 0x000000AB000000000000000000000042 = .command (.clearT4 0xAB) ∧
    decode 0x00000000000000000000000000000043 = .command .sizeT4 ∧
    decode 0x00000003000000000000000000000045 = .command (.newT4 3) := by decide

theorem test_decode_T8 :
    decode 0x000000C7000000020000000500000051 = .command (.drawT8 5 2 0xC7) ∧
    decode 0x00000000000000000000000000000052 = .command (.clearT8 0) ∧
    decode 0x00000000000000000000000000000053 = .command .sizeT8 ∧
    decode 0x00000003000000000000000000000055 = .command (.newT8 3) := by decide

theorem test_decode_illegal_opcode :
    ([0x00, 0xFF, 0x14, 0x15, 0x25, 0x35, 0x44, 0x54, 0x61, 0x16, 0x10, 0x01].map fun w0 : Word =>
      decode (commandWord w0 0 0 0)) = List.replicate 12 (.illegal .illegalOpcode) := by decide

theorem test_decode_reserved_bits :
    [commandWord 0x00000111 0 0 0, commandWord 0x00000011 0 0 0x00000020,
        commandWord 0x00000011 0 0 0x00200000, commandWord 0x00000011 0 0 0x80000000,
        commandWord 0x00000021 0 0 0x00000100, commandWord 0x00000024 0 0 0x00000002,
        commandWord 0x00000013 1 0 0, commandWord 0x00000045 0 1 3, commandWord 0x00000012 5 0 0x1F].map decode =
      List.replicate 9 (.illegal .reservedBits) := by decide

theorem test_decode_near_misses :
    decode (commandWord 0x00000012 0 0 0x0000001F) = .command (.clearFD 31 0 0) ∧
    decode (commandWord 0x00000021 0xFFFFFFFF 5 9) = .command (.drawFP (-1) 5 9) ∧
    decode (commandWord 0x00000041 0 0 0x000000FF) = .command (.drawT4 0 0 255) := by decide

theorem test_bytes_of_command :
    bytesOfCommand (commandWord 0x00000011 2 1 0x1F) = [0x11, 0, 0, 0, 2, 0, 0, 0, 1, 0, 0, 0, 0x1F, 0, 0, 0] ∧
    bytesOfCommand (encode (.clearFD 1 2 3)) = [0x12, 0, 0, 0, 0, 0, 0, 0, 0, 0, 0, 0, 1, 2, 3, 0] := by
  decide

theorem test_decodeTableWord :
    decodeTableWord 128 0x0000002A000000020000000300000021 = some (.drawFP 3 2 0x2A) ∧
    decodeTableWord 8 0x13 = some .sizeFD ∧ decodeTableWord 128 0x100000013 = none ∧
    decodeTableWord 128 0 = none := by decide

theorem test_withFetchWord :
    step (State.reset.withFetchWord 128 0x00000003000000000000000000000055) = exec (.newT8 3) State.reset :=
  eq_of_view (by decide)

/-! ## The textual form (30_encoding.md R81, R82) -/

theorem test_text_of_commands :
    String.ofList (commandText (.drawFD 0 0 31 0 0)) = "DRAW.FD 0, 0, 31, 0, 0" ∧
    String.ofList (commandText (.clearFP 7)) = "CLEAR.FP 7" ∧
    String.ofList (commandText (.selectRD .page1)) = "SELECT.RD Page1" ∧
    String.ofList (commandText (.drawT4 0 0 9)) = "DRAW.T4 0, 0, 9" ∧
    String.ofList (commandText .sizeT8) = "SIZE.T8" := by decide

set_option maxRecDepth 8000 in
theorem test_assembleLine :
    assembleLine "DRAW.FP -1, 0x80000000, 0x2A ; a comment".toList = some [encode (.drawFP (-1) 0x80000000 42)] ∧
    assembleLine "DRAWSEQ.T8 (1, 2, 3), (4, 5, 6)".toList = some [encode (.drawT8 1 2 3), encode (.drawT8 4 5 6)] ∧
    assembleLine "; nothing".toList = some [] ∧ assembleLine "CLEAR.RD 32, 0, 0".toList = none := by decide

/-! ## Ill-formed configurations, one for each condition of R6 (WellFormed.lean) -/

theorem test_wf_tableP : Config.tableP.WF := by decide
theorem test_wf_small : small.WF := by decide

theorem test_wf_refuses_dimensions :
    ¬ Config.DimensionsOk { Config.tableP with hRed := 0 } ∧
    ¬ Config.DimensionsOk { Config.tableP with wRed := 300 } ∧
    view (step { State.reset with cfg := { Config.tableP with hRed := 0 } }) = .inr (.inr .badConfiguration) := by decide

theorem test_wf_refuses_wide_dimension :
    ¬ Config.DimensionsFit { Config.tableP with wFull := 65536 } ∧
    view (step { State.reset with cfg := { Config.tableP with wFull := 65536 } }) = .inr (.inr .badConfiguration) := by
  decide

theorem test_wf_refuses_channels :
    ¬ Config.ChannelsTile { Config.tableP with chPosB := 5 } ∧
    view (step { State.reset with cfg := { Config.tableP with chPosB := 5 } }) = .inr (.inr .badConfiguration) := by decide

theorem test_wf_refuses_misaligned_base :
    ¬ Config.BasesAligned { Config.tableP with baseFD := 0x06000001 } ∧
    view (step { State.reset with cfg := { Config.tableP with baseFD := 0x06000001 } }) = .inr (.inr .badConfiguration) := by
  decide

theorem test_wf_refuses_region_past_top :
    ¬ Config.RegionsFit { Config.tableP with baseFD := 0xFFFFFFFE } ∧
    view (step { State.reset with cfg := { Config.tableP with baseFD := 0xFFFFFFFE } }) = .inr (.inr .badConfiguration) := by
  decide

theorem test_wf_refuses_overlapping_pages :
    ¬ Config.PagesDisjoint { Config.tableP with baseRD1 := 0x06009FFE } ∧
    view (step { State.reset with cfg := { Config.tableP with baseRD1 := 0x06009FFE } }) = .inr (.inr .badConfiguration) := by
  decide

/-! ## Pure functions (V1, 40_color_coordinate.md) -/

theorem test_pack15 :
    pack15 Config.tableP 1 2 3 = 0x0C41 ∧ pack15 Config.tableP 16 8 4 = 0x1110 ∧
    pack15 Config.tableP 21 10 21 = 0x5555 ∧ unpack15 Config.tableP 0xFFFF = (31, 31, 31) := by decide

theorem test_truncation_and_replication :
    trunc4 0x25 = 5 ∧ trunc4 0xAB = 11 ∧ rep4 (trunc4 0xAB) = 0xBBBBBBBB ∧ rep8 0xAB = 0xABABABAB := by decide

/-! ## Surface FD (V3) -/

theorem test_drawFD_cell :
    (after (exec (.drawFD 239 159 31 31 31) State.reset)).mem = [(0x06012BFE, 0xFF), (0x06012BFF, 0x7F)] ∧
    (after (exec (.drawFD 2 1 31 0 0) State.reset)).mem = [(0x060001E4, 0x1F), (0x060001E5, 0x00)] := by decide

theorem test_drawFD_out_of_bounds :
    ([(240, 0), (0, 160), (-1, 0), (0, -1), (0x80000000, 0), (0x7FFFFFFF, 0x7FFFFFFF)].map
      fun c : Coord × Coord => view (exec (.drawFD c.1 c.2 31 31 31) State.reset)) =
      List.replicate 6 (.inl State.reset) := by decide

theorem test_clearFD : (after (exec (.clearFD 3 2 1) readySmall)).mem =
    [(15, 0xA5), (16, 0x41), (17, 0x0C), (18, 0x41), (19, 0x0C), (20, 0x41), (21, 0x0C), (22, 0x41),
      (23, 0x0C), (40, 0x5A)] := by decide

theorem test_sizes :
    (after (execSeq [.sizeFD, .sizeFP, .sizeRD, .sizeT4, .sizeT8] State.reset)).responses =
      [0x00A000F0, 0x00A000F0, 0x008000A0, 0x00080008, 0x00080008] := by decide

/-! ## Surface FP (V4) -/

theorem test_drawFP_cell :
    (after (exec (.drawFP 3 2 0x2A) ready)).mem = [(0x0600A1E3, 0x2A)] ∧
    (after (exec (.drawFP 239 159 0) ready)).mem = [(0x060135FF, 0x00)] := by decide

theorem test_drawFP_out_of_bounds :
    view (exec (.drawFP 240 0 1) ready) = .inl ready ∧ view (exec (.drawFP (-1) (-1) 1) ready) = .inl ready := by decide

theorem test_clearFP : (after (exec (.clearFP 7) readySmall)).mem =
    [(15, 0xA5), (16, 0x11), (17, 0x22), (20, 7), (21, 7), (22, 7), (23, 7), (40, 0x5A)] := by decide

theorem test_selectFP :
    (after (exec (.selectFP .page0) ready)).pselFP = .page0 ∧
    (after (exec (.selectFP .page0) ready)).pselRD = .page1 := by decide

/-! ## Surface RD (V5) -/

theorem test_drawRD_cell :
    (after (exec (.drawRD 1 1 0 31 0) ready)).mem = [(0x0600A142, 0xE0), (0x0600A143, 0x03)] ∧
    (after (exec (.drawRD 159 127 31 0 0) ready)).mem = [(0x06013FFE, 0x1F), (0x06013FFF, 0x00)] := by decide

theorem test_drawRD_out_of_bounds :
    view (exec (.drawRD 239 0 1 1 1) ready) = .inl ready ∧ view (exec (.drawRD 0 128 1 1 1) ready) = .inl ready := by decide

theorem test_clearRD : (after (exec (.clearRD 31 31 31) readySmall)).mem =
    [(15, 0xA5), (16, 0x11), (17, 0x22), (22, 0xFF), (23, 0x7F), (24, 0xFF), (25, 0x7F), (26, 0xFF),
      (27, 0x7F), (40, 0x5A)] := by decide

theorem test_selectRD :
    (after (exec (.selectRD .page0) ready)).pselRD = .page0 ∧
    (after (exec (.selectRD .page0) ready)).pselFP = .page1 := by decide

/-! ## Tile buffer T4 (V6) -/

theorem test_newT4 :
    (after (exec (.newT4 3) State.reset)).t4 = Vector.replicate 8 0x33333333 ∧
    (after (exec (.newT4 0x13) State.reset)).t4 = Vector.replicate 8 0x33333333 := by decide

theorem test_drawT4 :
    (after (exec (.drawT4 4 2 0x25) ready)).t4 =
      #v[0x33333333, 0x33333333, 0x33353333, 0x33333333, 0x33333333, 0x33333333, 0x33333333, 0x33333333] ∧
    ((after (exec (.drawT4 7 7 12) ready)).t4)[7] = 0xC3333333 := by decide

theorem test_drawT4_replaces_and_clips :
    ((after (execSeq [.newT4 15, .drawT4 2 0 0] State.reset)).t4)[0] = 0xFFFFF0FF ∧
    view (exec (.drawT4 8 0 5) ready) = .inl ready := by decide

theorem test_clearT4 : (after (exec (.clearT4 0xAB) State.reset)).t4 = Vector.replicate 8 0xBBBBBBBB := by decide

/-! ## Tile buffer T8 (V7) -/

theorem test_newT8 : (after (exec (.newT8 0x13) State.reset)).t8 = Vector.replicate 16 0x13131313 := by decide

theorem test_drawT8 :
    ((after (exec (.drawT8 5 2 0xC7) ready)).t8)[5] = 0x0303C703 ∧
    ((after (exec (.drawT8 5 2 0xC7) ready)).t8)[4] = 0x03030303 := by decide

theorem test_drawT8_replaces_and_clips :
    ((after (execSeq [.newT8 0xFF, .drawT8 2 0 0] State.reset)).t8)[0] = 0xFF00FFFF ∧
    view (exec (.drawT8 0 (-1) 5) ready) = .inl ready := by decide

theorem test_clearT8 : (after (exec (.clearT8 0xAB) State.reset)).t8 = Vector.replicate 16 0xABABABAB := by decide

/-! ## Refusals and the order of tests (V8) -/

theorem test_refusals_after_reset :
    view (exec (.drawT4 0 0 1) State.reset) = .inr (.inr .noBufferT4) ∧
    view (exec (.drawT4 9 9 1) State.reset) = .inr (.inr .noBufferT4) ∧
    view (exec (.drawT8 0 0 1) State.reset) = .inr (.inr .noBufferT8) ∧
    view (exec (.drawFP 240 0 1) State.reset) = .inr (.inr .noPageSelectedFP) ∧
    view (exec (.clearFP 0) State.reset) = .inr (.inr .noPageSelectedFP) ∧
    view (exec (.drawRD 0 0 0 0 0) State.reset) = .inr (.inr .noPageSelectedRD) ∧
    view (exec (.clearRD 0 0 0) State.reset) = .inr (.inr .noPageSelectedRD) := by decide

theorem test_selectors_are_independent :
    view (execSeq [.selectRD .page1, .drawFP 0 0 1] State.reset) = .inr (.inr .noPageSelectedFP) := by decide

theorem test_clearT4_makes_the_buffer_hold_a_value :
    ((after (execSeq [.clearT4 5, .drawT4 0 0 1] State.reset)).t4)[0] = 0x55555551 := by decide

theorem test_step_refuses_illegal_words :
    view (step (presenting 0 State.reset)) = .inr (.inr .illegalOpcode) ∧
    view (step (presenting (commandWord 0x00000024 0 0 2) State.reset)) = .inr (.inr .reservedBits) := by decide

theorem test_step_without_input : view (step State.reset) = .inr (.inl .sequenceEnded) := by decide

theorem test_reset_input :
    (after (step { readySmall with inputs := [.reset] })).holdsT4 = false ∧
    (after (step { readySmall with inputs := [.reset] })).mem = readySmall.mem := by decide

/-! ## Runs (Programs 5 and 7; R253) -/

theorem test_aliasing_of_surfaces :
    memRead .littleEndian (after (execSeq [.drawRD 0 0 31 31 31, .drawFP 0 0 0x55] ready)).mem 0x0600A000 .two = some 0x7F55 ∧
    addrFD Config.tableP 80 85 = 0x0600A000 := by decide

theorem test_run_refused :
    view (run Config.tableP [] [0x23, 0x00000001000000000000000000000034, 0x00000001000000000000000000000021]) =
      .inr (.inr .noPageSelectedFP) := by decide

/-! ## Witnesses: states and operands that meet the hypotheses of the statements -/

/-- A coordinate component in `[0, n)` is the word of a number below `n`. -/
theorem coord_of_bounds {n : Nat} {x : Coord} (h₁ : 0 ≤ x.toInt) (h₂ : x.toInt < n) :
    ∃ k, k < n ∧ x = BitVec.ofNat 32 k := by
  refine ⟨x.toInt.toNat, by omega, ?_⟩
  apply BitVec.eq_of_toInt_eq
  have h := x.toInt_lt
  rw [BitVec.toInt_ofNat', Int.toNat_of_nonneg h₁]
  simp only [Int.bmod]
  omega

theorem witness_EncodeInvertsDecode : decode 0x000000C7000000020000000500000051 = .command (.drawT8 5 2 0xC7) := by
  decide

theorem witness_IllegalWordsAreExactlyTheOthers :
    decode 0x61 = .illegal .illegalOpcode ∧ decode 0x111 = .illegal .reservedBits := by decide

theorem witness_BytesOfCommandLeastSignificantFirst :
    (bytesOfCommand 0x000102030405060708090A0B0C0D0E0F)[15]? = some 0 := by decide

theorem witness_NativeWordOfDirectColour : small.WF ∧ (pack15 small 31 0 0) = 0x7C00 := by decide

theorem witness_ColourConversionIsLossless :
    small.WF ∧ pack15 small 1 2 3 = pack15 small 1 2 3 ∧ unpack15 small 0x8443 = (1, 2, 3) := by decide

theorem witness_SlotArithmetic : InBounds 8 8 0 0 ∧ InBounds 8 8 7 7 ∧ slot 7 7 = 63 := by decide

theorem witness_AddressMappingProperties :
    Config.tableP.WF ∧ InBounds Config.tableP.wFull Config.tableP.hFull 239 159 ∧
    InBounds Config.tableP.wFull Config.tableP.hFull 0 0 ∧
    InBounds Config.tableP.wRed Config.tableP.hRed 159 127 ∧
    InBounds Config.tableP.wRed Config.tableP.hRed 0 0 ∧ ¬ ((239 : Coord) = 0 ∧ (159 : Coord) = 0) := by decide

theorem witness_CellAddressesAlignedAndInSpace :
    small.WF ∧ small.addrW = 16 ∧ Config.tableP.WF ∧ InBounds Config.tableP.wFull Config.tableP.hFull 239 159 ∧
    InBounds Config.tableP.wRed Config.tableP.hRed 159 127 :=
  ⟨by decide, rfl, by decide, by decide, by decide⟩

theorem witness_CellsAreLittleEndian :
    memRead small.byteOrder readySmall.mem 16 .two = some 0x2211 ∧ memRead small.byteOrder readySmall.mem 17 .two = none ∧
    (18 : Nat) ≠ 16 ∧ (18 : Nat) ≠ 16 + 1 := by decide

theorem witness_MemFillIsTheWritesInAnyOrder :
    readySmall.mem.wf ∧ [2, 0, 1].Perm (List.range 3) ∧
    [2, 0, 1].foldl (fun m k => memWrite .littleEndian m (16 + CellSize.two.bytes * k) .two 0x1234) readySmall.mem =
      memFill .littleEndian readySmall.mem 16 3 .two 0x1234 := by decide

/-- In bounds at the last cell, out of bounds one past it, held and not held: every clause for FD, FP, RD. -/
theorem witness_BitmapDrawRules :
    InBounds ready.cfg.wFull ready.cfg.hFull 239 159 ∧ ¬ InBounds ready.cfg.wFull ready.cfg.hFull 240 159 ∧
    InBounds ready.cfg.wRed ready.cfg.hRed 159 127 ∧ ¬ InBounds ready.cfg.wRed ready.cfg.hRed 159 128 ∧
    ready.holdsPselFP = true ∧ ready.holdsPselRD = true ∧
    State.reset.holdsPselFP = false ∧ State.reset.holdsPselRD = false := by decide

theorem witness_TileDrawRules :
    InBounds 8 8 7 7 ∧ ¬ InBounds 8 8 8 0 ∧ ready.holdsT4 = true ∧ ready.holdsT8 = true ∧
    State.reset.holdsT4 = false ∧ State.reset.holdsT8 = false := by decide

theorem witness_FullDirectProperties :
    InBounds ready.cfg.wFull ready.cfg.hFull 0 0 ∧ ¬ InBounds ready.cfg.wFull ready.cfg.hFull 0 160 ∧
    ¬ InRegionFD ready.cfg 0x06012C00 ∧ (0x06000002 : Nat) ≠ addrFD ready.cfg 0 0 ∧
    (0x06000002 : Nat) ≠ addrFD ready.cfg 0 0 + 1 := by decide

theorem witness_FullPaletteProperties :
    ready.holdsPselFP = true ∧ ready.pselFP = .page1 ∧ ready.cfg.WF ∧ Page.page0 ≠ .page1 ∧
    InBounds ready.cfg.wFull ready.cfg.hFull 239 0 ∧ ¬ InBounds ready.cfg.wFull ready.cfg.hFull (-1) (-1) ∧
    InRegionFP ready.cfg .page0 0x060095FF ∧ ¬ InRegionFP ready.cfg .page1 0x06013600 ∧
    (0x0600A0F0 : Nat) ≠ addrFP ready.cfg .page1 239 0 := by decide

theorem witness_ReducedDirectProperties :
    ready.holdsPselRD = true ∧ ready.pselRD = .page1 ∧ ready.cfg.WF ∧ Page.page0 ≠ .page1 ∧
    InBounds ready.cfg.wRed ready.cfg.hRed 0 0 ∧ ¬ InBounds ready.cfg.wRed ready.cfg.hRed 160 0 ∧
    InRegionRD ready.cfg .page0 0x06009FFF ∧ ¬ InRegionRD ready.cfg .page1 0x06014000 ∧
    (0x0600A002 : Nat) ≠ addrRD ready.cfg .page1 0 0 ∧
    (0x0600A002 : Nat) ≠ addrRD ready.cfg .page1 0 0 + 1 := by decide

theorem witness_TileFourProperties :
    ready.holdsT4 = true ∧ ¬ InBounds 8 8 0 8 ∧ (63 : Nat) < 64 ∧ (62 : Nat) ≠ 63 := by decide

theorem witness_TileEightProperties :
    ready.holdsT8 = true ∧ ¬ InBounds 8 8 0 (-1) ∧ (63 : Nat) < 64 ∧ (0 : Nat) ≠ 63 := by decide

theorem witness_OutOfBoundsDrawIsANoOp :
    ¬ InBounds ready.cfg.wFull ready.cfg.hFull 240 0 ∧ ¬ InBounds ready.cfg.wRed ready.cfg.hRed 160 0 ∧
    ¬ InBounds 8 8 8 0 ∧ ready.holdsPselFP = true ∧ ready.holdsPselRD = true ∧ ready.holdsT4 = true ∧
    ready.holdsT8 = true := by decide

theorem witness_CommandsCompleteExactlyWhenValuesHeld :
    ready.holdsT4 = true ∧ exec (.drawT4 7 7 1) ready = .next (after (exec (.drawT4 7 7 1) ready)) :=
  ⟨rfl, next_after (by decide)⟩

/-- One input for each row of the table of refusals (the right-hand side), the ill-formed configuration with
an illegal word waiting. -/
theorem witness_RefusalsAreExactlyTheTable :
    ¬ ({ small with hRed := 0 } : Config).WF ∧ State.reset.cfg.WF ∧
    (∀ w, (presenting w State.reset).inputs = .command w :: []) ∧
    decode 0x61 = .illegal .illegalOpcode ∧ decode 0x111 = .illegal .reservedBits ∧
    decode 0x21 = .command (.drawFP 0 0 0) ∧ decode 0x22 = .command (.clearFP 0) ∧
    decode 0x31 = .command (.drawRD 0 0 0 0 0) ∧ decode 0x32 = .command (.clearRD 0 0 0) ∧
    decode 0x41 = .command (.drawT4 0 0 0) ∧ decode 0x51 = .command (.drawT8 0 0 0) ∧
    State.reset.holdsPselFP = false ∧ State.reset.holdsPselRD = false ∧ State.reset.holdsT4 = false ∧
    State.reset.holdsT8 = false :=
  ⟨by decide, by decide, fun _ => rfl, by decide, by decide, by decide, by decide, by decide, by decide,
    by decide, by decide, rfl, rfl, rfl, rfl⟩

theorem test_step_refuses_each_row :
    [0x61, 0x111, 0x21, 0x22, 0x31, 0x32, 0x41, 0x51].map (fun w => view (step (presenting w State.reset))) =
      [.illegalOpcode, .reservedBits, .noPageSelectedFP, .noPageSelectedFP, .noPageSelectedRD, .noPageSelectedRD,
        .noBufferT4, .noBufferT8].map fun why => .inr (.inr why) := by decide

/-- One command of each shape: storing a cell, storing a region, tile word, page, response. -/
theorem witness_CommandsWriteOnlyWhatTheMatrixShows :
    ∀ i ∈ ([.drawFD 1 1 1 1 1, .clearRD 1 1 1, .drawT4 1 1 1, .selectFP .page0, .sizeFD] : List Instr),
      exec i readySmall = .next (after (exec i readySmall)) := by
  have h : ∀ i ∈ ([.drawFD 1 1 1 1 1, .clearRD 1 1 1, .drawT4 1 1 1, .selectFP .page0, .sizeFD] : List Instr),
    completes (exec i readySmall) = true := by decide
  exact fun i hi => next_after (h i hi)

/-- A byte of the region beside the drawn cell, the cell itself for a draw out of bounds, a word beside the
drawn one, one past a cleared region, and the rows that show no write. -/
theorem witness_CommandsWriteOnlyWhatTheMatrixShows_outside :
    ¬ MayWrite (.drawFD 1 1 1 1 1) readySmall 21 ∧ MayWrite (.drawFD 1 1 1 1 1) readySmall 22 ∧
    ¬ MayWrite (.drawFD 2 0 1 1 1) readySmall 20 ∧ ¬ MayWrite (.drawFP 1 1 1) readySmall 22 ∧
    ¬ MayWrite (.drawRD 2 0 1 1 1) readySmall 25 ∧ ¬ MayWrite (.clearFP 1) readySmall 24 ∧
    ¬ MayWrite .sizeFD readySmall 16 ∧ ¬ MayWriteWordT4 (.drawT4 1 1 1) 0 ∧
    ¬ MayWriteWordT4 (.drawT4 8 0 1) 1 ∧ ¬ MayWriteWordT8 (.drawT8 4 0 1) 0 ∧
    ¬ MayWriteWordT4 (.drawT8 1 1 1) 1 ∧ ¬ WritesPselFP (.selectRD .page0) ∧
    ¬ WritesPselRD (.selectFP .page0) ∧ ¬ Responds (.newT4 1) := by
  simp only [MayWrite, MayWriteWordT4, MayWriteWordT8, WritesPselFP, WritesPselRD, Responds]; decide

theorem witness_OnlySizeResponds :
    readySmall.cfg.WF ∧ exec .sizeRD readySmall = .next (after (exec .sizeRD readySmall)) ∧
    exec (.clearT8 1) readySmall = .next (after (exec (.clearT8 1) readySmall)) :=
  ⟨by decide, next_after (by decide), next_after (by decide)⟩

theorem witness_ElementsHoldValuesFromFirstFullWrite :
    step { ready with inputs := [.reset] } = .next (after (step { ready with inputs := [.reset] })) ∧
    step (presenting 0x45 State.reset) = .next (after (step (presenting 0x45 State.reset))) ∧
    State.reset.holdsT4 = false ∧ State.reset.holdsT8 = false ∧ State.reset.holdsPselFP = false ∧
    State.reset.holdsPselRD = false :=
  ⟨next_after (by decide), next_after (by decide), rfl, rfl, rfl, rfl⟩

theorem witness_PagesAreIsolated :
    readySmall.cfg.WF ∧ readySmall.pselFP ≠ .page0 ∧ readySmall.pselRD ≠ .page0 ∧
    InRegionFP readySmall.cfg .page0 19 ∧ InRegionRD readySmall.cfg .page0 21 ∧
    exec (.clearFP 1) readySmall = .next (after (exec (.clearFP 1) readySmall)) ∧
    exec (.drawRD 2 0 1 1 1) readySmall = .next (after (exec (.drawRD 2 0 1 1 1) readySmall)) :=
  ⟨by decide, by decide, by decide, by decide, by decide, next_after (by decide), next_after (by decide)⟩

theorem witness_CommandsReadOnlyWhatTheMatrixShows :
    (∀ x y idx, Instr.drawT8 0 0 1 ≠ .drawT4 x y idx) ∧ (∀ x y idx, Instr.drawT4 0 0 1 ≠ .drawT8 x y idx) ∧
    (∀ x y idx, Instr.clearRD 1 1 1 ≠ .drawFP x y idx) ∧ (∀ idx, Instr.clearRD 1 1 1 ≠ .clearFP idx) ∧
    (∀ x y r g b, Instr.clearFP 1 ≠ .drawRD x y r g b) ∧ (∀ r g b, Instr.clearFP 1 ≠ .clearRD r g b) := by
  simp

/-- Two states that differ in `T4` and `PSEL_FP`, which hold no value, and nowhere else. -/
theorem witness_UnheldContentsAreUnobservable :
    AgreeOnHeld State.reset { State.reset with t4 := Vector.replicate 8 0xFFFFFFFF, pselFP := .page1 } := by
  constructor <;> decide

theorem witness_StepRunsTheDecodedCommand :
    ready.cfg.WF ∧ (presenting 0x43 ready).inputs = [.command 0x43] ∧ decode 0x43 = .command .sizeT4 ∧
    decode (BitVec.ofNat 128 0x43) = .command .sizeT4 := by decide

theorem witness_ResetLeavesNoValueHeld :
    ready.cfg.WF ∧ ({ ready with inputs := [.reset, .command 0x43] } : State).inputs = [.reset, .command 0x43] := by
  decide

theorem witness_EveryStepKeepsTheInvariant :
    Inv (presenting (encode (.drawFD 1 1 1 2 3)) readySmall) ∧
    step (presenting (encode (.drawFD 1 1 1 2 3)) readySmall) =
      .next (after (step (presenting (encode (.drawFD 1 1 1 2 3)) readySmall))) :=
  ⟨⟨by decide, by decide, by decide⟩, next_after (by decide)⟩

theorem witness_NoControlTransfer :
    step (presenting 0x43 ready) = .next (after (step (presenting 0x43 ready))) := next_after (by decide)

theorem witness_RunIsItsCommandsInOrder :
    Config.tableP.WF ∧ [0x45, 0x43].map decode =
      [Instr.newT4 0, .sizeT4].map Decoded.command := by decide

theorem witness_LaterDrawReplacesEarlier :
    readySmall.mem.wf ∧
    execSeq [.drawFD 1 1 1 2 3, .drawFD 1 1 4 5 6] readySmall = exec (.drawFD 1 1 4 5 6) readySmall :=
  ⟨by decide, eq_of_view (by decide)⟩

/-- A sequence that draws one coordinate twice and another out of bounds. -/
def somePixels : List DirectPixel := [⟨1, 1, 1, 1, 1⟩, ⟨2, 0, 9, 9, 9⟩, ⟨1, 1, 3, 2, 1⟩]

theorem witness_DrawSequenceLastWriteWins :
    InBounds readySmall.cfg.wFull readySmall.cfg.hFull 1 1 ∧ lastPixelAt somePixels 1 1 = some ⟨1, 1, 3, 2, 1⟩ ∧
    InBounds readySmall.cfg.wFull readySmall.cfg.hFull 0 0 ∧ lastPixelAt somePixels 0 0 = none ∧
    ¬ InRegionFD readySmall.cfg 24 ∧
    memRead .littleEndian (after (execSeq (drawSeqFD somePixels) readySmall)).mem 22 .two = some 0x0C41 := by decide

/-- Every in-bounds coordinate of `small`, one of them twice, and one out of bounds. -/
def everyPixel : List DirectPixel :=
  [⟨1, 1, 3, 2, 1⟩, ⟨2, 0, 3, 2, 1⟩, ⟨0, 0, 3, 2, 1⟩, ⟨1, 0, 3, 2, 1⟩, ⟨0, 1, 3, 2, 1⟩, ⟨1, 1, 3, 2, 1⟩]

/-- The same with a palette index. -/
def everyIndexPixel : List IndexPixel := everyPixel.map fun p => ⟨p.x, p.y, 7⟩

theorem everyPixel_covers {x y : Coord} (h : InBounds 2 2 x y) : ∃ p ∈ everyPixel, p.x = x ∧ p.y = y := by
  obtain ⟨k, hk, rfl⟩ := coord_of_bounds h.1 h.2.1
  obtain ⟨l, hl, rfl⟩ := coord_of_bounds h.2.2.1 h.2.2.2
  interval_cases k <;> interval_cases l <;> decide

theorem everyPixel_covers_reduced {x y : Coord} (h : InBounds 3 1 x y) :
    ∃ p ∈ everyPixel, p.x = x ∧ p.y = y := by
  obtain ⟨k, hk, rfl⟩ := coord_of_bounds h.1 h.2.1
  obtain ⟨l, hl, rfl⟩ := coord_of_bounds h.2.2.1 h.2.2.2
  interval_cases k <;> interval_cases l <;> decide

theorem witness_BitmapClearEqualsDrawingEverything :
    readySmall.cfg.WF ∧ readySmall.mem.wf ∧ readySmall.holdsPselFP = true ∧ readySmall.holdsPselRD = true ∧
    (∀ p ∈ everyPixel, p.r = 3 ∧ p.g = 2 ∧ p.b = 1) ∧ (∀ p ∈ everyIndexPixel, p.idx = 7) ∧
    (∀ x y, InBounds readySmall.cfg.wFull readySmall.cfg.hFull x y → ∃ p ∈ everyPixel, p.x = x ∧ p.y = y) ∧
    (∀ x y, InBounds readySmall.cfg.wFull readySmall.cfg.hFull x y →
      ∃ p ∈ everyIndexPixel, p.x = x ∧ p.y = y) ∧
    (∀ x y, InBounds readySmall.cfg.wRed readySmall.cfg.hRed x y → ∃ p ∈ everyPixel, p.x = x ∧ p.y = y) := by
  refine ⟨by decide, by decide, rfl, rfl, by decide, by decide, fun x y h => everyPixel_covers h,
    fun x y h => ?_, fun x y h => everyPixel_covers_reduced h⟩
  obtain ⟨p, hp, hx, hy⟩ := everyPixel_covers h
  exact ⟨⟨p.x, p.y, 7⟩, List.mem_map_of_mem hp, hx, hy⟩

theorem test_bitmap_clear_by_drawing :
    execSeq (drawSeqFD everyPixel) readySmall = exec (.clearFD 3 2 1) readySmall ∧
    execSeq (drawSeqFP everyIndexPixel) readySmall = exec (.clearFP 7) readySmall ∧
    execSeq (drawSeqRD everyPixel) readySmall = exec (.clearRD 3 2 1) readySmall :=
  ⟨eq_of_view (by decide), eq_of_view (by decide), eq_of_view (by decide)⟩

/-- The 64 coordinates of a tile, the last slot first. -/
def everyTilePixel : List IndexPixel :=
  (List.range 64).reverse.map fun i => ⟨BitVec.ofNat 32 (i % 8), BitVec.ofNat 32 (i / 8), 0x19⟩

theorem witness_TileClearEqualsDrawingEverything :
    ready.holdsT4 = true ∧ ready.holdsT8 = true ∧ (∀ p ∈ everyTilePixel, p.idx = 0x19) ∧
    ∀ x y, InBounds 8 8 x y → ∃ p ∈ everyTilePixel, p.x = x ∧ p.y = y := by
  refine ⟨rfl, rfl, by decide, fun x y h => ?_⟩
  obtain ⟨k, hk, rfl⟩ := coord_of_bounds h.1 h.2.1
  obtain ⟨l, hl, rfl⟩ := coord_of_bounds h.2.2.1 h.2.2.2
  refine ⟨_, List.mem_map_of_mem (a := k + 8 * l) (by simp; omega), ?_, ?_⟩
  · simp only [show (k + 8 * l) % 8 = k by omega]
  · simp only [show (k + 8 * l) / 8 = l by omega]

/-- Both bytes of a known cell of `FD` and of a known cell of `RD`. -/
theorem witness_SurfacesShareOneStorage :
    ({ readySmall with pselFP := .page0 } : State).holdsPselFP = true ∧
    InBounds small.wFull small.hFull 0 0 ∧ InBounds small.wFull small.hFull 1 0 ∧
    memRead small.byteOrder readySmall.mem (addrFD small 0 0) .two = some 0x2211 ∧
    addrRD small .page0 0 0 = addrFD small 0 0 ∧
    addrFP small .page0 0 0 = addrFD small 0 0 ∧ addrFP small .page0 1 0 = addrFD small 0 0 + 1 := by decide

/-- The other value of `BYTE_ORDER` (log entry 5): the two bytes of a cell change places. -/
theorem test_byte_order_parameter :
    memWrite .bigEndian [] 16 .two 0x1234 = [(16, 0x12), (17, 0x34)] ∧
    memRead .bigEndian [(16, 0x12), (17, 0x34)] 16 .two = some 0x1234 := by decide

end Sys2Proof.Tests
end

section
/-! Proofs for the family of 10_state.md: which elements hold a value after a command and after a step
(R32), and what is refused while an element holds none. -/

namespace Sys2Proof.Machine

/-! ## Refused while an element holds no value -/

theorem withPageFP_unheld {s : State} (h : s.holdsPselFP = false) (k : Page → Result) :
    withPageFP s k = .refused .noPageSelectedFP := by simp [withPageFP, h]

theorem withPageRD_unheld {s : State} (h : s.holdsPselRD = false) (k : Page → Result) :
    withPageRD s k = .refused .noPageSelectedRD := by simp [withPageRD, h]

theorem withBufferT4_unheld {s : State} (h : s.holdsT4 = false) (k : Vector Word t4Words → Result) :
    withBufferT4 s k = .refused .noBufferT4 := by simp [withBufferT4, h]

theorem withBufferT8_unheld {s : State} (h : s.holdsT8 = false) (k : Vector Word t8Words → Result) :
    withBufferT8 s k = .refused .noBufferT8 := by simp [withBufferT8, h]

theorem exec_drawFP_unheld {s : State} (h : s.holdsPselFP = false) (x y : Coord) (idx : Index) :
    exec (.drawFP x y idx) s = .refused .noPageSelectedFP := by rw [exec, execDrawFP, withPageFP_unheld h]

theorem exec_clearFP_unheld {s : State} (h : s.holdsPselFP = false) (idx : Index) :
    exec (.clearFP idx) s = .refused .noPageSelectedFP := by rw [exec, execClearFP, withPageFP_unheld h]

theorem exec_drawRD_unheld {s : State} (h : s.holdsPselRD = false) (x y : Coord) (r g b : Channel) :
    exec (.drawRD x y r g b) s = .refused .noPageSelectedRD := by rw [exec, execDrawRD, withPageRD_unheld h]

theorem exec_clearRD_unheld {s : State} (h : s.holdsPselRD = false) (r g b : Channel) :
    exec (.clearRD r g b) s = .refused .noPageSelectedRD := by rw [exec, execClearRD, withPageRD_unheld h]

theorem exec_drawT4_unheld {s : State} (h : s.holdsT4 = false) (x y : Coord) (idx : Index) :
    exec (.drawT4 x y idx) s = .refused .noBufferT4 := by rw [exec, execDrawT4, withBufferT4_unheld h]

theorem exec_drawT8_unheld {s : State} (h : s.holdsT8 = false) (x y : Coord) (idx : Index) :
    exec (.drawT8 x y idx) s = .refused .noBufferT8 := by rw [exec, execDrawT8, withBufferT8_unheld h]

/-! ## What a kind of command leaves unfilled -/

theorem fillsT4_iff {i : Instr} : FillsT4 i ↔ ∃ idx, i = .newT4 idx ∨ i = .clearT4 idx := by
  cases i <;> simp [FillsT4]

theorem fillsT8_iff {i : Instr} : FillsT8 i ↔ ∃ idx, i = .newT8 idx ∨ i = .clearT8 idx := by
  cases i <;> simp [FillsT8]

/-- The command writes none of `T4`, `T8`, `PSEL_FP`, `PSEL_RD` completely (R35). -/
structure FillsNoElement (i : Instr) : Prop where
  t4 : ¬ FillsT4 i
  t8 : ¬ FillsT8 i
  pselFP : ¬ WritesPselFP i
  pselRD : ¬ WritesPselRD i

/-- A `DRAW`, a bitmap `CLEAR` or a `SIZE` fills no element: its row of the access matrix shows none (R35). -/
theorem fillsNoElement_of_kind {i : Instr} (h : Draws i ∨ ClearsBitmap i ∨ Responds i) :
    FillsNoElement i := by
  cases i with
  | newT4 | clearT4 | newT8 | clearT8 | selectFP | selectRD =>
    simp [Draws, ClearsBitmap, Responds] at h
  | _ => exact ⟨id, id, id, id⟩

/-! ## Which elements hold a value after a command -/

/-- In `t` each element holds a value exactly if it did in `s` or the command writes it completely (R32). -/
def HoldsAfter (i : Instr) (s t : State) : Prop :=
  (t.holdsT4 = true ↔ s.holdsT4 = true ∨ FillsT4 i) ∧
  (t.holdsT8 = true ↔ s.holdsT8 = true ∨ FillsT8 i) ∧
  (t.holdsPselFP = true ↔ s.holdsPselFP = true ∨ WritesPselFP i) ∧
  (t.holdsPselRD = true ↔ s.holdsPselRD = true ∨ WritesPselRD i)

theorem FillsNoElement.holdsAfter {i : Instr} (no : FillsNoElement i) {s t : State}
    (hT4 : t.holdsT4 = s.holdsT4) (hT8 : t.holdsT8 = s.holdsT8)
    (hFP : t.holdsPselFP = s.holdsPselFP) (hRD : t.holdsPselRD = s.holdsPselRD) : HoldsAfter i s t := by
  simp [HoldsAfter, hT4, hT8, hFP, hRD, no.t4, no.t8, no.pselFP, no.pselRD]

theorem Change.holdsAfter {i : Instr} {s t : State} (h : Change i s t) : HoldsAfter i s t := by
  cases h with
  | nothing draws | cell _ _ _ draws | word4 _ _ _ draws | word8 _ _ _ draws =>
    exact (fillsNoElement_of_kind (.inl draws)).holdsAfter rfl rfl rfl rfl
  | region _ _ _ _ clears =>
    exact (fillsNoElement_of_kind (.inr (.inl clears))).holdsAfter rfl rfl rfl rfl
  | response _ responds =>
    exact (fillsNoElement_of_kind (.inr (.inr responds))).holdsAfter rfl rfl rfl rfl
  | pageFP _ isSelect | pageRD _ isSelect =>
    simp [HoldsAfter, isSelect, FillsT4, FillsT8, WritesPselFP, WritesPselRD]
  | tile4 v fills =>
    obtain ⟨idx, rfl | rfl⟩ := fillsT4_iff.mp fills <;>
      simp [HoldsAfter, FillsT4, FillsT8, WritesPselFP, WritesPselRD]
  | tile8 v fills =>
    obtain ⟨idx, rfl | rfl⟩ := fillsT8_iff.mp fills <;>
      simp [HoldsAfter, FillsT4, FillsT8, WritesPselFP, WritesPselRD]

/-- Settles O31: a step is a reset, or a command whose change of the state is one of `Change`; a command
that reads an element begins with the value test of that element. -/
theorem elementsHoldValuesFromFirstFullWrite : Obligations.ElementsHoldValuesFromFirstFullWrite := by
  refine ⟨fun s t h => ?_, fun s x y r g b idx => ⟨fun hT4 => ?_, fun hT8 => ?_, fun hFP => ?_, fun hRD => ?_⟩⟩
  · obtain ⟨-, rest, ⟨hin, rfl⟩ | ⟨cmd, i, hin, hdec, hexec⟩⟩ := step_cases h
    · exact .inl ⟨rest, hin, rfl, rfl, rfl, rfl⟩
    · exact .inr ⟨cmd, rest, i, hin, hdec, (exec_cases hexec).holdsAfter⟩
  · exact exec_drawT4_unheld hT4 x y idx
  · exact exec_drawT8_unheld hT8 x y idx
  · exact ⟨exec_drawFP_unheld hFP x y idx, exec_clearFP_unheld hFP idx⟩
  · exact ⟨exec_drawRD_unheld hRD x y r g b, exec_clearRD_unheld hRD r g b⟩

end Sys2Proof.Machine
end

section
/-! Proofs for the family of 20_memory.md: where the cells of a surface page lie (R44). -/

namespace Sys2Proof.Machine

/-- R44 (a), byte by byte: each byte of the cell of an in-bounds coordinate lies in the region. -/
theorem cellByte_in_region {base w h : Nat} {n : CellSize} {x y : Coord} {k : Nat} (hb : InBounds w h x y)
    (hk : k < n.bytes) : InRegion base w h n (cellAddr base w n x y + k) :=
  inCell_in_region hb ⟨Nat.le_add_right _ k, Nat.add_lt_add_left hk _⟩

/-- A cell ends before the cell of every larger cell index begins. -/
theorem cellAddr_add_bytes_le {base w : Nat} {n : CellSize} {x y x' y' : Coord}
    (hlt : cellIndex w x y < cellIndex w x' y') :
    cellAddr base w n x y + n.bytes ≤ cellAddr base w n x' y' := by
  have hmul : n.bytes * (cellIndex w x y + 1) ≤ n.bytes * cellIndex w x' y' := Nat.mul_le_mul_left _ hlt
  rw [Nat.mul_add_one] at hmul
  unfold cellAddr; omega

/-- R44 (b): the cells of two different in-bounds coordinates of one surface page do not overlap. -/
theorem cellAddr_apart {base w h : Nat} {n : CellSize} {x y x' y' : Coord} (hb : InBounds w h x y)
    (hb' : InBounds w h x' y') (hne : ¬ (x = x' ∧ y = y')) :
    cellAddr base w n x y + n.bytes ≤ cellAddr base w n x' y' ∨
    cellAddr base w n x' y' + n.bytes ≤ cellAddr base w n x y := by
  have hidx : cellIndex w x y ≠ cellIndex w x' y' := fun e => hne (cellIndex_inj hb hb' e)
  exact (Nat.lt_or_gt_of_ne hidx).imp cellAddr_add_bytes_le cellAddr_add_bytes_le

theorem cellAddr_ne {base w h : Nat} {n : CellSize} {x y x' y' : Coord} (hb : InBounds w h x y)
    (hb' : InBounds w h x' y') (hne : ¬ (x = x' ∧ y = y')) :
    cellAddr base w n x y ≠ cellAddr base w n x' y' := by
  have hpos := bytes_pos n
  have hapart := cellAddr_apart (base := base) (n := n) hb hb' hne
  omega

/-- Settles O11: the cell index of an in-bounds coordinate is below `W*H` and determines the coordinate;
the disjointness of the pages is R6 (f). -/
theorem addressMappingProperties : Obligations.AddressMappingProperties := by
  intro cfg hwf
  refine ⟨fun x y hb => ?inRegionFull, fun x y hb p => ?inRegionReduced,
    fun x y x' y' hb hb' hne => ?apartFull, fun x y x' y' hb hb' hne p => ?apartReduced,
    fun a ⟨h₀, h₁⟩ => ?pagesFP, fun a ⟨h₀, h₁⟩ => ?pagesRD⟩
  case inRegionFull =>
    exact ⟨cellByte_in_region hb (bytes_pos _), cellByte_in_region hb (n := .two) (k := 1) (by decide),
      fun p => cellByte_in_region hb (bytes_pos _)⟩
  case inRegionReduced =>
    exact ⟨cellByte_in_region hb (bytes_pos _), cellByte_in_region hb (n := .two) (k := 1) (by decide)⟩
  case apartFull => exact ⟨cellAddr_apart hb hb' hne, fun p => cellAddr_ne hb hb' hne⟩
  case apartReduced => exact cellAddr_apart hb hb' hne
  case pagesFP => exact pagesFP_disjoint hwf (by decide) h₀ h₁
  case pagesRD => exact pagesRD_disjoint hwf (by decide) h₀ h₁

end Sys2Proof.Machine
end

section
/-! Proofs for the family of 30_encoding.md: a command word as bytes (R84), and which commands respond,
with what word (R86). -/

namespace Sys2Proof

/-! ## A command word as bytes, least significant first (R84) -/

theorem natOfBytes_append (bs cs : List Byte) :
    natOfBytes (bs ++ cs) = natOfBytes bs + 256 ^ bs.length * natOfBytes cs := by
  induction bs with
  | nil => simp [natOfBytes]
  | cons b bs ih => simp only [List.cons_append, natOfBytes, ih, List.length_cons]; ring

/-- Byte `k` of a word is its digit of weight `256 ^ k`. -/
theorem toNat_extract_byte (w : CommandWord) (k : Nat) :
    (w.extractLsb' (8 * k) 8).toNat = w.toNat / 256 ^ k % 256 := by
  rw [BitVec.extractLsb'_toNat, Nat.shiftRight_eq_div_pow, Nat.pow_mul]

/-- The number of the low `n` bytes of a word. -/
theorem natOfBytes_extract_bytes (w : CommandWord) (n : Nat) :
    natOfBytes ((List.range n).map fun k => w.extractLsb' (8 * k) 8) = w.toNat % 256 ^ n := by
  induction n with
  | zero => simp [natOfBytes, Nat.mod_one]
  | succ n ih =>
    rw [List.range_succ, List.map_append, natOfBytes_append, ih, Nat.mod_pow_succ,
      ← toNat_extract_byte]
    simp [natOfBytes]

@[simp] theorem bytesOfCommand_length (w : CommandWord) : (bytesOfCommand w).length = 16 := by
  simp [bytesOfCommand]

theorem bytesOfCommand_getElem? (w : CommandWord) {k : Nat} (hk : k < 16) :
    (bytesOfCommand w)[k]? = some (w.extractLsb' (8 * k) 8) := by
  simp [bytesOfCommand, hk]

theorem natOfBytes_bytesOfCommand (w : CommandWord) : natOfBytes (bytesOfCommand w) = w.toNat := by
  rw [bytesOfCommand, natOfBytes_extract_bytes]
  exact Nat.mod_eq_of_lt w.isLt

theorem takeCommand_bytesOfCommand_append (w : CommandWord) (rest : List Byte) :
    takeCommand (bytesOfCommand w ++ rest) = some (w, rest) := by
  have hlen := bytesOfCommand_length w
  rw [takeCommand, if_neg (by simp), List.take_left' hlen, List.drop_left' hlen,
    natOfBytes_bytesOfCommand, BitVec.ofNat_toNat, BitVec.setWidth_eq]

/-- Settles O5: the bytes are the digits of the word to the base 256, so the first 16 of them make up
the word again. -/
theorem bytesOfCommandLeastSignificantFirst : Obligations.BytesOfCommandLeastSignificantFirst :=
  fun w rest => ⟨bytesOfCommand_length w, fun _ hk => bytesOfCommand_getElem? w hk,
    takeCommand_bytesOfCommand_append w rest⟩

end Sys2Proof

namespace Sys2Proof.Machine

/-! ## The response word (R86) -/

theorem sizeWord_width {w : Nat} (hw : w < 2 ^ 16) (h : Nat) :
    ((sizeWord w h).extractLsb' 0 16).toNat = w := by
  rw [sizeWord, BitVec.extractLsb'_append_eq_right, BitVec.toNat_ofNat, Nat.mod_eq_of_lt hw]

theorem sizeWord_height (w : Nat) {h : Nat} (hh : h < 2 ^ 16) :
    ((sizeWord w h).extractLsb' 16 16).toNat = h := by
  rw [sizeWord, BitVec.extractLsb'_append_eq_left, BitVec.toNat_ofNat, Nat.mod_eq_of_lt hh]

theorem answerSize_next {w h : Nat} {s t : State} (e : answerSize w h s = .next t) :
    t = s.respond (sizeWord w h) := by
  simpa [answerSize] using e.symm

/-- The command is the `SIZE` of a surface of width `w` and height `h`. -/
def IsSizeOf (cfg : Config) (i : Instr) (w h : Nat) : Prop :=
  (i = .sizeFD ∨ i = .sizeFP) ∧ w = cfg.wFull ∧ h = cfg.hFull ∨
  i = .sizeRD ∧ w = cfg.wRed ∧ h = cfg.hRed ∨
  (i = .sizeT4 ∨ i = .sizeT8) ∧ w = 8 ∧ h = 8

/-- A command that responds is the `SIZE` of a surface, and answers that surface's dimensions. -/
theorem exec_of_responds {i : Instr} (hi : Responds i) (s : State) :
    ∃ w h, IsSizeOf s.cfg i w h ∧ exec i s = answerSize w h s := by
  cases i with
  | sizeFD => exact ⟨_, _, .inl ⟨.inl rfl, rfl, rfl⟩, rfl⟩
  | sizeFP => exact ⟨_, _, .inl ⟨.inr rfl, rfl, rfl⟩, rfl⟩
  | sizeRD => exact ⟨_, _, .inr (.inl ⟨rfl, rfl, rfl⟩), rfl⟩
  | sizeT4 => exact ⟨_, _, .inr (.inr ⟨.inl rfl, rfl, rfl⟩), rfl⟩
  | sizeT8 => exact ⟨_, _, .inr (.inr ⟨.inr rfl, rfl, rfl⟩), rfl⟩
  | _ => exact hi.elim

/-- R6 (b): the dimensions of every surface fit the halves of the response. -/
theorem IsSizeOf.fit {cfg : Config} (hc : cfg.WF) {i : Instr} {w h : Nat} (hi : IsSizeOf cfg i w h) :
    w < 2 ^ 16 ∧ h < 2 ^ 16 := by
  obtain ⟨-, ⟨⟨-, hwFull⟩, ⟨-, hhFull⟩, ⟨-, hwRed⟩, ⟨-, hhRed⟩⟩, -⟩ := hc
  rcases hi with ⟨-, rfl, rfl⟩ | ⟨-, rfl, rfl⟩ | ⟨-, rfl, rfl⟩
  · exact ⟨hwFull, hhFull⟩
  · exact ⟨hwRed, hhRed⟩
  · decide

/-- Only the change that is a response touches the responses. -/
theorem Change.responses_of_not_responds {i : Instr} {s t : State} (h : Change i s t)
    (hi : ¬ Responds i) : t.responses = s.responses := by
  cases h with
  | response _ responds => exact absurd responds hi
  | _ => rfl

/-- Settles O30: a `SIZE` appends the word of its surface's dimensions, whose halves hold them because
the configuration is well formed; every other change of the state keeps the responses. -/
theorem onlySizeResponds : Obligations.OnlySizeResponds := by
  refine fun i s t hc e => ⟨fun hi => ?_, (exec_cases e).responses_of_not_responds⟩
  obtain ⟨w, h, hsize, hexec⟩ := exec_of_responds hi s
  obtain ⟨hw, hh⟩ := hsize.fit hc
  obtain rfl := answerSize_next (hexec.symm.trans e)
  exact ⟨sizeWord w h, w, h, rfl, sizeWord_width hw h, sizeWord_height w hh, hsize⟩

end Sys2Proof.Machine
end

section
/-! Proofs for the family of 40_color_coordinate.md: the native word of a direct colour (R101);
truncation of an index and replication of a nibble and of a byte (R108). -/

namespace Sys2Proof.Machine

/-! ## The native word of a direct colour (R101) -/

/-- A channel placed at bit 10 or below ends below bit 15. -/
theorem channelAt_bit15 {pos : Nat} (hpos : pos ≤ 10) (c : Channel) :
    (channelAt pos c).getLsbD 15 = false := by
  have hc : c.getLsbD (15 - pos) = false := BitVec.getLsbD_of_ge c _ (by omega)
  simp [channelAt, hc]

/-- R6 (c): no channel is placed above bit 10. -/
theorem chPos_le_of_channelsTile {cfg : Config} (h : cfg.ChannelsTile) :
    cfg.chPosR ≤ 10 ∧ cfg.chPosG ≤ 10 ∧ cfg.chPosB ≤ 10 := by
  simp only [Config.ChannelsTile, List.mem_cons, List.not_mem_nil, or_false] at h
  omega

theorem pack15_bit15 {cfg : Config} (h : cfg.ChannelsTile) (r g b : Channel) :
    (pack15 cfg r g b).getLsbD 15 = false := by
  obtain ⟨hr, hg, hb⟩ := chPos_le_of_channelsTile h
  simp only [pack15, BitVec.getLsbD_or, channelAt_bit15 hr, channelAt_bit15 hg, channelAt_bit15 hb,
    Bool.or_false]

/-- With Table P each channel starts where the one below it ends, so the OR of the shifted channels is
their concatenation. -/
theorem pack15_tableP (r g b : Channel) :
    pack15 Config.tableP r g b = (0 : BitVec 1) ++ b ++ g ++ r :=
  calc pack15 Config.tableP r g b
    _ = (0 : BitVec 1).setWidth 16 <<< 15 ||| channelAt 10 b ||| channelAt 5 g ||| channelAt 0 r := by
      simp [pack15, Config.tableP, BitVec.or_comm, BitVec.or_assoc]
    _ = ((0 : BitVec 1) ++ b ++ g ++ r).setWidth 16 := by
      rw [BitVec.setWidth_append_append_append_eq_shiftLeft_setWidth_or]
      simp only [channelAt, BitVec.shiftLeft_zero]
    _ = (0 : BitVec 1) ++ b ++ g ++ r := BitVec.setWidth_eq _

/-- Settles O7: the formula is `PACK15` itself; with Table P the three shifted channels are a
concatenation; R6 (c) keeps every channel below bit 15. -/
theorem nativeWordOfDirectColour : Obligations.NativeWordOfDirectColour := by
  refine ⟨fun _ _ _ _ => rfl, pack15_tableP, fun cfg r g b hwf => ?_, by decide⟩
  obtain ⟨-, -, htile, -⟩ := hwf
  exact pack15_bit15 htile r g b

/-! ## Truncation to four bits (R108) -/

theorem trunc4_setWidth (idx : Index) : (trunc4 idx).setWidth 8 = idx &&& 0xF := by
  apply BitVec.eq_of_toNat_eq
  have hmask : idx.toNat &&& 15 = idx.toNat % 16 := Nat.and_two_pow_sub_one_eq_mod idx.toNat 4
  have hmod : idx.toNat % 16 < 256 := by omega
  simp [trunc4, hmask, Nat.mod_eq_of_lt hmod]

/-! ## Replication of a nibble and of a byte (R108) -/

/-- In `x ++ y` the number of `x` has the weight of the first bit past `y`. -/
theorem toNat_append_eq_mul_add {m n : Nat} (x : BitVec m) (y : BitVec n) :
    (x ++ y).toNat = x.toNat * 2 ^ n + y.toNat := by
  rw [BitVec.toNat_append, ← Nat.shiftLeft_add_eq_or_of_lt y.isLt, Nat.shiftLeft_eq]

theorem rep4_toNat (n : BitVec 4) : (rep4 n).toNat = n.toNat * 0x11111111 := by
  simp only [rep4, toNat_append_eq_mul_add]; omega

theorem rep8_toNat (v : Index) : (rep8 v).toNat = v.toNat * 0x01010101 := by
  simp only [rep8, toNat_append_eq_mul_add]; omega

/-- The product does not wrap: fifteen times `0x11111111` still fits a word. -/
theorem rep4_eq_mul (n : BitVec 4) : rep4 n = n.setWidth 32 * 0x11111111 := by
  apply BitVec.eq_of_toNat_eq
  have hfits : n.toNat * 0x11111111 < 2 ^ 32 := by omega
  rw [rep4_toNat, BitVec.toNat_mul, BitVec.toNat_setWidth_of_le (by decide)]
  exact (Nat.mod_eq_of_lt hfits).symm

/-- The product does not wrap: 255 times `0x01010101` still fits a word. -/
theorem rep8_eq_mul (v : Index) : rep8 v = v.setWidth 32 * 0x01010101 := by
  apply BitVec.eq_of_toNat_eq
  have hfits : v.toNat * 0x01010101 < 2 ^ 32 := by omega
  rw [rep8_toNat, BitVec.toNat_mul, BitVec.toNat_setWidth_of_le (by decide)]
  exact (Nat.mod_eq_of_lt hfits).symm

theorem rep4_eq_replicate (n : BitVec 4) : rep4 n = n.replicate 8 := by
  apply BitVec.eq_of_toNat_eq
  simp only [rep4, BitVec.replicate_succ', BitVec.replicate_zero, BitVec.toNat_cast,
    toNat_append_eq_mul_add, BitVec.toNat_ofNat, Nat.zero_mod, Nat.zero_mul, Nat.zero_add]

theorem rep8_eq_replicate (v : Index) : rep8 v = v.replicate 4 := by
  apply BitVec.eq_of_toNat_eq
  simp only [rep8, BitVec.replicate_succ', BitVec.replicate_zero, BitVec.toNat_cast,
    toNat_append_eq_mul_add, BitVec.toNat_ofNat, Nat.zero_mod, Nat.zero_mul, Nat.zero_add]

/-- Each of the `m` places of a replicated value holds the value. -/
theorem extractLsb'_replicate {w m : Nat} (x : BitVec w) {k : Nat} (hk : k < m) :
    (x.replicate m).extractLsb' (w * k) w = x := by
  apply BitVec.eq_of_getLsbD_eq
  intro i hi
  have hlt : w * k + i < w * m :=
    calc w * k + i
      _ < w * k + w := Nat.add_lt_add_left hi _
      _ = w * (k + 1) := (Nat.mul_add_one w k).symm
      _ ≤ w * m := Nat.mul_le_mul_left w hk
  rw [BitVec.getLsbD_extractLsb', BitVec.getLsbD_replicate, Nat.mul_add_mod, Nat.mod_eq_of_lt hi]
  simp [hi, hlt]

theorem rep4_nibble (n : BitVec 4) {k : Nat} (hk : k < 8) : (rep4 n).extractLsb' (4 * k) 4 = n := by
  rw [rep4_eq_replicate]; exact extractLsb'_replicate n hk

theorem rep8_byte (v : Index) {k : Nat} (hk : k < 4) : (rep8 v).extractLsb' (8 * k) 8 = v := by
  rw [rep8_eq_replicate]; exact extractLsb'_replicate v hk

/-- Settles O10: masking with `0xF` is the remainder by 16; a replicated value is a product that does not
wrap, and holds the value in each of its places. -/
theorem truncationAndReplication : Obligations.TruncationAndReplication :=
  ⟨fun idx => ⟨rfl, trunc4_setWidth idx⟩, fun n => ⟨rep4_eq_mul n, fun _ hk => rep4_nibble n hk⟩,
    fun v => ⟨rep8_eq_mul v, fun _ hk => rep8_byte v hk⟩, by decide⟩

end Sys2Proof.Machine
end

section
/-! Proofs for the family of 41_full_direct.md: what the five `SIZE` commands answer (R123, R144, R164,
R184, R204), and the words that are these commands. -/

namespace Sys2Proof

/-- R74, R76: a word that is an opcode byte of format `SZ` and nothing else is a command. -/
theorem decode_opcode_of_SZ {opc : BitVec 8} {row : OpRow} (hrow : opcodeRow opc = some row)
    (hformat : row.format = .SZ) :
    decode (commandWord (opcodeWord opc) 0 0 0) =
      .command (row.command (commandWord (opcodeWord opc) 0 0 0)) := by
  simp only [decode, opcodeByte_commandWord, hrow, hformat]
  exact if_pos (fixed_of_SZ opc)

end Sys2Proof

namespace Sys2Proof.Machine

/-- Nothing is tested, so no state refuses a `SIZE`, and the responses are all that it changes. -/
theorem answerSize_eq (w h : Nat) (s : State) :
    answerSize w h s =
      .next { s with responses := s.responses ++ [(BitVec.ofNat 16 h ++ BitVec.ofNat 16 w : Word)] } := rfl

theorem sizeWord_tile : sizeWord tileSide tileSide = 0x00080008 := by decide

/-- The response of a tile buffer does not depend on the configuration: `W_TILE` and `H_TILE` are fixed. -/
theorem answerSize_tile (s : State) :
    answerSize tileSide tileSide s = .next { s with responses := s.responses ++ [0x00080008] } := by
  rw [← sizeWord_tile]; rfl

/-- Settles O19: each `SIZE` is `answerSize` of its surface, which tests nothing and appends one word; the
words of the examples are the `SZ` rows of Table O. -/
theorem sizeAnswersTheDimensions : Obligations.SizeAnswersTheDimensions := by
  refine ⟨fun s => ⟨?fd, ?fp, ?rd, ?t4, ?t8⟩, ?full, ?reduced, ?decFD, ?decFP, ?decRD, ?decT4, ?decT8⟩
  case fd => exact answerSize_eq s.cfg.wFull s.cfg.hFull s
  case fp => exact answerSize_eq s.cfg.wFull s.cfg.hFull s
  case rd => exact answerSize_eq s.cfg.wRed s.cfg.hRed s
  case t4 => exact answerSize_tile s
  case t8 => exact answerSize_tile s
  case full => decide
  case reduced => decide
  case decFD => exact decode_opcode_of_SZ (opc := 0x13) rfl rfl
  case decFP => exact decode_opcode_of_SZ (opc := 0x23) rfl rfl
  case decRD => exact decode_opcode_of_SZ (opc := 0x33) rfl rfl
  case decT4 => exact decode_opcode_of_SZ (opc := 0x43) rfl rfl
  case decT8 => exact decode_opcode_of_SZ (opc := 0x53) rfl rfl

end Sys2Proof.Machine
end

section
/-! Proofs for the family of 42_full_palette.md: the page that is not selected keeps every byte (R145,
R165); what `SELECT` sets (R141, R161), and the words that are these commands. -/

namespace Sys2Proof

/-- R74, R76: a word that is an opcode byte of format `SP` and a page and nothing else is the row's command
on that page. -/
theorem decode_page_of_SP {opc : BitVec 8} {row : OpRow} {command : Page → Instr} (p : Page)
    (hrow : opcodeRow opc = some row) (hformat : row.format = .SP)
    (hcommand : ∀ w, row.command w = command (fieldPage w)) :
    decode (commandWord (opcodeWord opc) 0 0 (pageWord p)) = .command (command p) := by
  simp only [decode, opcodeByte_commandWord, hrow, hformat, hcommand, fieldPage_commandWord]
  exact if_pos (fixed_of_SP opc p)

theorem decode_selectFP (p : Page) :
    decode (commandWord (opcodeWord 0x24) 0 0 (pageWord p)) = .command (.selectFP p) :=
  decode_page_of_SP p rfl rfl fun _ => rfl

theorem decode_selectRD (p : Page) :
    decode (commandWord (opcodeWord 0x34) 0 0 (pageWord p)) = .command (.selectRD p) :=
  decode_page_of_SP p rfl rfl fun _ => rfl

end Sys2Proof

namespace Sys2Proof.Machine

/-! ## A command changes only the bytes it may write (R35) -/

theorem memFill_read_outside {order : ByteOrder} {m : Memory} {base count : Nat} {n : CellSize} {v : Half}
    {a : Nat} (h : ¬ (base ≤ a ∧ a < base + n.bytes * count)) :
    (memFill order m base count n v).read a = m.read a := by
  rw [memFill_read, if_neg h]

/-- Only a cell write and a region fill touch the storage, both inside what the access matrix allows. -/
theorem Change.mem_read_of_not_mayWrite {i : Instr} {s t : State} {a : Nat} (h : Change i s t)
    (ha : ¬ MayWrite i s a) : t.mem.read a = s.mem.read a := by
  cases h with
  | cell addr n v draws inside =>
    have houtside : ¬ (addr ≤ a ∧ a < addr + n.bytes) := fun ⟨hle, hlt⟩ => ha (inside a hle hlt)
    exact memWrite_read_outside (by omega)
  | region base count n v clears inside =>
    exact memFill_read_outside fun ⟨hle, hlt⟩ => ha (inside a hle hlt)
  | _ => rfl

/-! ## The page that is not selected (R145, R165) -/

/-- R142, R143: a command of `FP` writes inside the region of the selected page only. -/
theorem mayWrite_selectedPageFP {i : Instr} {s : State} {a : Nat}
    (hi : (∃ x y idx, i = .drawFP x y idx) ∨ ∃ idx, i = .clearFP idx) (h : MayWrite i s a) :
    InRegionFP s.cfg s.pselFP a := by
  rcases hi with ⟨x, y, idx, rfl⟩ | ⟨idx, rfl⟩
  · obtain ⟨hbounds, hcell⟩ := h
    exact inCell_in_region hbounds hcell
  · exact h

/-- R162, R163: a command of `RD` writes inside the region of the selected page only. -/
theorem mayWrite_selectedPageRD {i : Instr} {s : State} {a : Nat}
    (hi : (∃ x y r g b, i = .drawRD x y r g b) ∨ ∃ r g b, i = .clearRD r g b) (h : MayWrite i s a) :
    InRegionRD s.cfg s.pselRD a := by
  rcases hi with ⟨x, y, r, g, b, rfl⟩ | ⟨r, g, b, rfl⟩
  · obtain ⟨hbounds, hcell⟩ := h
    exact inCell_in_region hbounds hcell
  · exact h

/-- Settles O32: a command changes only bytes it may write, these lie in the region of the selected page,
and the two page regions share no address (R6 (f)). -/
theorem pagesAreIsolated : Obligations.PagesAreIsolated := by
  refine fun s t q a hwf => ⟨fun hsel hq i hi hexec => ?fp, fun hsel hq i hi hexec => ?rd⟩
  case fp =>
    exact (exec_cases hexec).mem_read_of_not_mayWrite fun hmay =>
      pagesFP_disjoint hwf hsel (mayWrite_selectedPageFP hi hmay) hq
  case rd =>
    exact (exec_cases hexec).mem_read_of_not_mayWrite fun hmay =>
      pagesRD_disjoint hwf hsel (mayWrite_selectedPageRD hi hmay) hq

/-! ## What `SELECT` sets (R141, R161) -/

/-- Nothing is tested, so no state refuses a `SELECT.FP`. -/
theorem exec_selectFP (p : Page) (s : State) : exec (.selectFP p) s = .next (s.selectPageFP p) := rfl

/-- Nothing is tested, so no state refuses a `SELECT.RD`. -/
theorem exec_selectRD (p : Page) (s : State) : exec (.selectRD p) s = .next (s.selectPageRD p) := rfl

theorem State.selectPageFP_idem (s : State) (p : Page) :
    (s.selectPageFP p).selectPageFP p = s.selectPageFP p := rfl

theorem State.selectPageRD_idem (s : State) (p : Page) :
    (s.selectPageRD p).selectPageRD p = s.selectPageRD p := rfl

theorem execSeq_cons_next {i : Instr} {s t : State} (is : List Instr) (h : exec i s = .next t) :
    execSeq (i :: is) s = execSeq is t := by
  simp only [execSeq, h]

theorem execSeq_singleton (i : Instr) (s : State) : execSeq [i] s = exec i s := by
  simp only [execSeq]
  cases exec i s <;> rfl

/-- A command that changes nothing in the state it leaves may be given twice for once. -/
theorem execSeq_twice {i : Instr} {s t : State} (h : exec i s = .next t) (again : exec i t = .next t) :
    execSeq [i, i] s = exec i s := by
  rw [execSeq_cons_next [i] h, execSeq_singleton, again, h]

/-- Settles O18: a `SELECT` is the update of its own selector, which done twice is done once; the words
of the examples are the `SP` rows of Table O. -/
theorem selectSetsThePage : Obligations.SelectSetsThePage := by
  refine ⟨fun s p => ⟨?fp, ?rd, ?twiceFP, ?twiceRD⟩, ?decFP, ?decRD⟩
  case fp => exact exec_selectFP p s
  case rd => exact exec_selectRD p s
  case twiceFP => exact execSeq_twice (exec_selectFP p s) (by rw [exec_selectFP, State.selectPageFP_idem])
  case twiceRD => exact execSeq_twice (exec_selectRD p s) (by rw [exec_selectRD, State.selectPageRD_idem])
  case decFP => exact decode_selectFP .page1
  case decRD => exact decode_selectRD .page0

end Sys2Proof.Machine
end

section
/-! Proofs for the family of 60_exceptions.md: a draw out of bounds has a defined, empty effect (R221). -/

namespace Sys2Proof.Machine

/-! ## A draw out of bounds, surface by surface -/

section

variable {s : State} {x y : Coord}

theorem exec_drawFD_out (hb : ¬ InBounds s.cfg.wFull s.cfg.hFull x y) (r g b : Channel) :
    exec (.drawFD x y r g b) s = .next s := by
  simp only [exec, execDrawFD, drawBitmap_out hb]

/-- The value test comes before the bounds test (R223), so it has to pass here and below. -/
theorem exec_drawFP_out (held : s.holdsPselFP = true) (hb : ¬ InBounds s.cfg.wFull s.cfg.hFull x y)
    (idx : Index) : exec (.drawFP x y idx) s = .next s := by
  simp only [exec, execDrawFP, withPageFP_held held, drawBitmap_out hb]

theorem exec_drawRD_out (held : s.holdsPselRD = true) (hb : ¬ InBounds s.cfg.wRed s.cfg.hRed x y)
    (r g b : Channel) : exec (.drawRD x y r g b) s = .next s := by
  simp only [exec, execDrawRD, withPageRD_held held, drawBitmap_out hb]

theorem exec_drawT4_out (held : s.holdsT4 = true) (hb : ¬ InBounds tileSide tileSide x y) (idx : Index) :
    exec (.drawT4 x y idx) s = .next s := by
  simp only [exec, execDrawT4, withBufferT4_held held, drawTile4_out hb]

theorem exec_drawT8_out (held : s.holdsT8 = true) (hb : ¬ InBounds tileSide tileSide x y) (idx : Index) :
    exec (.drawT8 x y idx) s = .next s := by
  simp only [exec, execDrawT8, withBufferT8_held held, drawTile8_out hb]

end

/-- Settles O25: where the value test passes, all that a draw does stands behind the bounds test of its
surface. -/
theorem outOfBoundsDrawIsANoOp : Obligations.OutOfBoundsDrawIsANoOp := by
  refine fun s x y r g b idx =>
    ⟨fun hfull => ⟨?fd, fun held => ?fp⟩, fun hred held => ?rd, fun htile => ⟨fun held => ?t4, fun held => ?t8⟩⟩
  case fd => exact exec_drawFD_out hfull r g b
  case fp => exact exec_drawFP_out held hfull idx
  case rd => exact exec_drawRD_out held hred r g b
  case t4 => exact exec_drawT4_out held htile idx
  case t8 => exact exec_drawT8_out held htile idx

end Sys2Proof.Machine
end

section
/-! Proofs for the command encoding (30_encoding.md section 6): encoder and decoder are inverse to each
other, and every word that is no command is illegal for one of the two reasons of R83. -/

namespace Sys2Proof

/-! ## Decoding an encoded command, format by format (R74) -/

/-- R83: the opcode byte names the row, and the fixed bits are those of the row's format. -/
theorem decode_of_row {opc : BitVec 8} {row : OpRow} {w1 w2 w3 : Word} (hrow : opcodeRow opc = some row)
    (hfixed : commandWord (opcodeWord opc) w1 w2 w3 &&& formatMask row.format = opc.setWidth 128) :
    decode (commandWord (opcodeWord opc) w1 w2 w3) =
      .command (row.command (commandWord (opcodeWord opc) w1 w2 w3)) := by
  simp only [decode, opcodeByte_commandWord, hrow]
  exact if_pos hfixed

section

variable {opc : BitVec 8} {row : OpRow} (hrow : opcodeRow opc = some row)
include hrow

theorem decode_of_DD {command : Coord → Coord → Channel → Channel → Channel → Instr}
    (x y : Coord) (r g b : Channel) (hformat : row.format = .DD)
    (hcommand : ∀ w, row.command w = command (fieldX w) (fieldY w) (fieldR w) (fieldG w) (fieldB w)) :
    decode (commandWord (opcodeWord opc) x y (colourWord r g b)) = .command (command x y r g b) := by
  rw [decode_of_row hrow (hformat ▸ fixed_of_DD opc x y r g b), hcommand, fieldX_commandWord,
    fieldY_commandWord, fieldR_commandWord, fieldG_commandWord, fieldB_commandWord]

theorem decode_of_DP {command : Coord → Coord → Index → Instr} (x y : Coord) (idx : Index)
    (hformat : row.format = .DP)
    (hcommand : ∀ w, row.command w = command (fieldX w) (fieldY w) (fieldIdx w)) :
    decode (commandWord (opcodeWord opc) x y (indexWord idx)) = .command (command x y idx) := by
  rw [decode_of_row hrow (hformat ▸ fixed_of_DP opc x y idx), hcommand, fieldX_commandWord,
    fieldY_commandWord, fieldIdx_commandWord]

theorem decode_of_CD {command : Channel → Channel → Channel → Instr} (r g b : Channel)
    (hformat : row.format = .CD)
    (hcommand : ∀ w, row.command w = command (fieldR w) (fieldG w) (fieldB w)) :
    decode (commandWord (opcodeWord opc) 0 0 (colourWord r g b)) = .command (command r g b) := by
  rw [decode_of_row hrow (hformat ▸ fixed_of_CD opc r g b), hcommand, fieldR_commandWord,
    fieldG_commandWord, fieldB_commandWord]

theorem decode_of_CP {command : Index → Instr} (idx : Index) (hformat : row.format = .CP)
    (hcommand : ∀ w, row.command w = command (fieldIdx w)) :
    decode (commandWord (opcodeWord opc) 0 0 (indexWord idx)) = .command (command idx) := by
  rw [decode_of_row hrow (hformat ▸ fixed_of_CP opc idx), hcommand, fieldIdx_commandWord]

end

theorem decode_encode (i : Instr) : decode (encode i) = .command i := by
  cases i with
  | drawFD x y r g b => exact decode_of_DD (opc := 0x11) rfl x y r g b rfl fun _ => rfl
  | clearFD r g b => exact decode_of_CD (opc := 0x12) rfl r g b rfl fun _ => rfl
  | sizeFD => exact decode_opcode_of_SZ (opc := 0x13) rfl rfl
  | drawFP x y idx => exact decode_of_DP (opc := 0x21) rfl x y idx rfl fun _ => rfl
  | clearFP idx => exact decode_of_CP (opc := 0x22) rfl idx rfl fun _ => rfl
  | sizeFP => exact decode_opcode_of_SZ (opc := 0x23) rfl rfl
  | selectFP page => exact decode_selectFP page
  | drawRD x y r g b => exact decode_of_DD (opc := 0x31) rfl x y r g b rfl fun _ => rfl
  | clearRD r g b => exact decode_of_CD (opc := 0x32) rfl r g b rfl fun _ => rfl
  | sizeRD => exact decode_opcode_of_SZ (opc := 0x33) rfl rfl
  | selectRD page => exact decode_selectRD page
  | drawT4 x y idx => exact decode_of_DP (opc := 0x41) rfl x y idx rfl fun _ => rfl
  | clearT4 idx => exact decode_of_CP (opc := 0x42) rfl idx rfl fun _ => rfl
  | sizeT4 => exact decode_opcode_of_SZ (opc := 0x43) rfl rfl
  | newT4 idx => exact decode_of_CP (opc := 0x45) rfl idx rfl fun _ => rfl
  | drawT8 x y idx => exact decode_of_DP (opc := 0x51) rfl x y idx rfl fun _ => rfl
  | clearT8 idx => exact decode_of_CP (opc := 0x52) rfl idx rfl fun _ => rfl
  | sizeT8 => exact decode_opcode_of_SZ (opc := 0x53) rfl rfl
  | newT8 idx => exact decode_of_CP (opc := 0x55) rfl idx rfl fun _ => rfl

/-- Settles O2: each command has a row of Table O, the fixed bits of its word are the row's, and the row's
fields read back the operands that the encoder placed. -/
theorem decodeInvertsEncode : Obligations.DecodeInvertsEncode := decode_encode

/-! ## A word put together again from its fields -/

/-- The words `W0` to `W3` of a command word (R71). -/
theorem commandWord_of_extracts (w : CommandWord) :
    commandWord (w.extractLsb' 0 32) (fieldX w) (fieldY w) (w.extractLsb' 96 32) = w := by
  apply BitVec.eq_of_getLsbD_eq
  intro i hi
  simp only [commandWord_getLsbD, fieldX, fieldY, BitVec.getLsbD_extractLsb']
  split_ifs with h₀ h₁ h₂
  · simp [h₀]
  · simp [show i - 32 < 32 by omega, show 32 + (i - 32) = i by omega]
  · simp [show i - 64 < 32 by omega, show 64 + (i - 64) = i by omega]
  · simp [show i - 96 < 32 by omega, show 96 + (i - 96) = i by omega]

theorem extract_word0_commandWord (w0 w1 w2 w3 : Word) :
    (commandWord w0 w1 w2 w3).extractLsb' 0 32 = w0 := by
  apply BitVec.eq_of_getLsbD_eq
  intro i hi
  rw [BitVec.getLsbD_extractLsb', commandWord_getLsbD]
  simp [hi]

theorem extract_word3_commandWord (w0 w1 w2 w3 : Word) :
    (commandWord w0 w1 w2 w3).extractLsb' 96 32 = w3 := by
  apply BitVec.eq_of_getLsbD_eq
  intro i hi
  rw [BitVec.getLsbD_extractLsb', commandWord_getLsbD]
  simp [hi, show ¬ 96 + i < 32 by omega, show ¬ 96 + i < 64 by omega]

theorem and_ones (v : Word) : v &&& 0xFFFFFFFF = v := BitVec.and_allOnes

/-- The fixed bits of a word, word by word: `W0` is the opcode byte, and the mask takes nothing else of
`W1`, `W2` and `W3`. -/
theorem words_of_fixed {w : CommandWord} {opc : BitVec 8} {m1 m2 m3 : Word}
    (h : w &&& commandWord 0xFFFFFFFF m1 m2 m3 = opc.setWidth 128) :
    w.extractLsb' 0 32 = opcodeWord opc ∧ fieldX w &&& m1 = 0 ∧ fieldY w &&& m2 = 0 ∧
      w.extractLsb' 96 32 &&& m3 = 0 := by
  rw [← commandWord_of_extracts w, ← commandWord_opcode, commandWord_and, and_ones] at h
  have h0 := congrArg (BitVec.extractLsb' 0 32) h
  have h1 := congrArg fieldX h
  have h2 := congrArg fieldY h
  have h3 := congrArg (BitVec.extractLsb' 96 32) h
  simp only [extract_word0_commandWord, fieldX_commandWord, fieldY_commandWord,
    extract_word3_commandWord] at h0 h1 h2 h3
  exact ⟨h0, h1, h2, h3⟩

/-- A bit that a mask takes is clear in a word in which the mask takes nothing. -/
theorem getLsbD_of_masked {v m : Word} (h : v &&& m = 0) {i : Nat} (hm : m.getLsbD i = true) :
    v.getLsbD i = false := by
  have hbit := congrArg (·.getLsbD i) h
  simpa [hm] using hbit

/-- R74: `W3` of a direct colour, put together again from its three channels. -/
theorem colourWord_of_masked {w : CommandWord} (h : w.extractLsb' 96 32 &&& 0xFFE0E0E0 = 0) :
    colourWord (fieldR w) (fieldG w) (fieldB w) = w.extractLsb' 96 32 := by
  have mask : ∀ i < 32, ¬ (i < 5 ∨ 8 ≤ i ∧ i < 13 ∨ 16 ≤ i ∧ i < 21) →
      (0xFFE0E0E0 : Word).getLsbD i = true := by decide
  apply BitVec.eq_of_getLsbD_eq
  intro i hi
  have clear := fun out => getLsbD_of_masked h (mask i hi out)
  simp only [colourWord_getLsbD, fieldR, fieldG, fieldB, BitVec.getLsbD_extractLsb', hi,
    decide_true, Bool.true_and] at clear ⊢
  split_ifs with h8 h16
  · by_cases h5 : i < 5
    · simp [h5]
    · simp [h5, clear (by omega)]
  · by_cases h13 : i < 13
    · simp [show i - 8 < 5 by omega, show 104 + (i - 8) = 96 + i by omega]
    · simp [show ¬ i - 8 < 5 by omega, clear (by omega)]
  · by_cases h21 : i < 21
    · simp [show i - 16 < 5 by omega, show 112 + (i - 16) = 96 + i by omega]
    · simp [show ¬ i - 16 < 5 by omega, clear (by omega)]

/-- R74: `W3` of a palette index. -/
theorem indexWord_of_masked {w : CommandWord} (h : w.extractLsb' 96 32 &&& 0xFFFFFF00 = 0) :
    indexWord (fieldIdx w) = w.extractLsb' 96 32 := by
  have mask : ∀ i < 32, 8 ≤ i → (0xFFFFFF00 : Word).getLsbD i = true := by decide
  apply BitVec.eq_of_getLsbD_eq
  intro i hi
  by_cases h8 : i < 8
  · rw [indexWord_getLsbD, fieldIdx, BitVec.getLsbD_extractLsb', BitVec.getLsbD_extractLsb']
    simp [h8, hi]
  · rw [getLsbD_of_masked h (mask i hi (by omega))]
    simp [indexWord_getLsbD, fieldIdx, h8]

/-- R74, R75: `W3` of a page. -/
theorem pageWord_of_masked {w : CommandWord} (h : w.extractLsb' 96 32 &&& 0xFFFFFFFE = 0) :
    pageWord (fieldPage w) = w.extractLsb' 96 32 := by
  have mask : ∀ i < 32, 1 ≤ i → (0xFFFFFFFE : Word).getLsbD i = true := by decide
  have page : ∀ p : BitVec 1, pageWord (pageOfBit p) = p.setWidth 32 := by decide
  rw [fieldPage, page]
  apply BitVec.eq_of_getLsbD_eq
  intro i hi
  by_cases h1 : i < 1
  · simp [h1, hi]
  · rw [getLsbD_of_masked h (mask i hi (by omega))]
    simp [h1]

section

variable {w : CommandWord} {opc : BitVec 8}

/-- A word with the fixed bits of a format is that format's word of its own fields. -/
theorem commandWord_of_DD (h : w &&& formatMask .DD = opc.setWidth 128) :
    commandWord (opcodeWord opc) (fieldX w) (fieldY w) (colourWord (fieldR w) (fieldG w) (fieldB w)) = w := by
  obtain ⟨h0, -, -, h3⟩ := words_of_fixed h
  rw [colourWord_of_masked h3, ← h0, commandWord_of_extracts]

theorem commandWord_of_DP (h : w &&& formatMask .DP = opc.setWidth 128) :
    commandWord (opcodeWord opc) (fieldX w) (fieldY w) (indexWord (fieldIdx w)) = w := by
  obtain ⟨h0, -, -, h3⟩ := words_of_fixed h
  rw [indexWord_of_masked h3, ← h0, commandWord_of_extracts]

/-- In the formats without a coordinate the mask takes all of `W1` and `W2`. -/
theorem commandWord_of_zero_coordinate {m3 : Word}
    (h : w &&& commandWord 0xFFFFFFFF 0xFFFFFFFF 0xFFFFFFFF m3 = opc.setWidth 128) :
    commandWord (opcodeWord opc) 0 0 (w.extractLsb' 96 32) = w ∧ w.extractLsb' 96 32 &&& m3 = 0 := by
  obtain ⟨h0, h1, h2, h3⟩ := words_of_fixed h
  rw [and_ones] at h1 h2
  refine ⟨?_, h3⟩
  conv_rhs => rw [← commandWord_of_extracts w, h0, h1, h2]

theorem commandWord_of_CD (h : w &&& formatMask .CD = opc.setWidth 128) :
    commandWord (opcodeWord opc) 0 0 (colourWord (fieldR w) (fieldG w) (fieldB w)) = w := by
  obtain ⟨hw, h3⟩ := commandWord_of_zero_coordinate h
  rw [colourWord_of_masked h3, hw]

theorem commandWord_of_CP (h : w &&& formatMask .CP = opc.setWidth 128) :
    commandWord (opcodeWord opc) 0 0 (indexWord (fieldIdx w)) = w := by
  obtain ⟨hw, h3⟩ := commandWord_of_zero_coordinate h
  rw [indexWord_of_masked h3, hw]

theorem commandWord_of_SP (h : w &&& formatMask .SP = opc.setWidth 128) :
    commandWord (opcodeWord opc) 0 0 (pageWord (fieldPage w)) = w := by
  obtain ⟨hw, h3⟩ := commandWord_of_zero_coordinate h
  rw [pageWord_of_masked h3, hw]

theorem commandWord_of_SZ (h : w &&& formatMask .SZ = opc.setWidth 128) :
    commandWord (opcodeWord opc) 0 0 0 = w := by
  obtain ⟨hw, h3⟩ := commandWord_of_zero_coordinate h
  rw [and_ones] at h3
  rwa [h3] at hw

end

/-! ## Encoding a decoded word -/

/-- R76: the command of a row of Table O, encoded, is every word with the row's fixed bits that it was
taken from. -/
theorem encode_command_of_fixed : ∀ row ∈ tableO, ∀ w : CommandWord,
    w &&& formatMask row.format = row.opcode.setWidth 128 → encode (row.command w) = w := by
  simp only [tableO, List.forall_mem_cons]
  exact ⟨fun _ => commandWord_of_DD, fun _ => commandWord_of_CD, fun _ => commandWord_of_SZ,
    fun _ => commandWord_of_DP, fun _ => commandWord_of_CP, fun _ => commandWord_of_SZ,
    fun _ => commandWord_of_SP,
    fun _ => commandWord_of_DD, fun _ => commandWord_of_CD, fun _ => commandWord_of_SZ,
    fun _ => commandWord_of_SP,
    fun _ => commandWord_of_DP, fun _ => commandWord_of_CP, fun _ => commandWord_of_SZ,
    fun _ => commandWord_of_CP,
    fun _ => commandWord_of_DP, fun _ => commandWord_of_CP, fun _ => commandWord_of_SZ,
    fun _ => commandWord_of_CP, List.forall_mem_nil _⟩

theorem opcodeRow_some {opc : BitVec 8} {row : OpRow} (h : opcodeRow opc = some row) :
    row ∈ tableO ∧ row.opcode = opc :=
  ⟨List.mem_of_find?_eq_some h, by simpa using List.find?_some h⟩

/-- What the decoder answers, with what it has tested (R83, R223). -/
theorem decode_cases (w : CommandWord) :
    (opcodeRow (opcodeByte w) = none ∧ decode w = .illegal .illegalOpcode) ∨
    ∃ row, opcodeRow (opcodeByte w) = some row ∧
      ((w &&& formatMask row.format = row.opcode.setWidth 128 ∧ decode w = .command (row.command w)) ∨
       decode w = .illegal .reservedBits) := by
  unfold decode
  cases hrow : opcodeRow (opcodeByte w) with
  | none => exact .inl ⟨rfl, rfl⟩
  | some row =>
    refine .inr ⟨row, rfl, ?_⟩
    obtain ⟨-, hopc⟩ := opcodeRow_some hrow
    by_cases hfixed : w &&& formatMask row.format = (opcodeByte w).setWidth 128
    · exact .inl ⟨hopc ▸ hfixed, if_pos hfixed⟩
    · exact .inr (if_neg hfixed)

theorem encode_of_decode {w : CommandWord} {i : Instr} (h : decode w = .command i) : encode i = w := by
  rcases decode_cases w with ⟨-, hd⟩ | ⟨row, hrow, ⟨hfixed, hd⟩ | hd⟩
  · simp [hd] at h
  · obtain rfl : row.command w = i := by simpa [hd] using h
    exact encode_command_of_fixed row (opcodeRow_some hrow).1 w hfixed
  · simp [hd] at h

/-- Settles O3: a word that decodes has the fixed bits of its row, so it is the row's format put together
from its own fields. -/
theorem encodeInvertsDecode : Obligations.EncodeInvertsDecode := fun _ _ => encode_of_decode

/-! ## The illegal words -/

theorem opcodeRow_eq_none_iff {opc : BitVec 8} : opcodeRow opc = none ↔ opc ∉ tableO.map OpRow.opcode := by
  simp [opcodeRow, List.find?_eq_none]

theorem decode_illegalOpcode_iff {w : CommandWord} :
    decode w = .illegal .illegalOpcode ↔ opcodeRow (opcodeByte w) = none := by
  rcases decode_cases w with ⟨hrow, hd⟩ | ⟨row, hrow, ⟨-, hd⟩ | hd⟩ <;> simp [hrow, hd]

/-- With both directions of the round trip, a word that does not decode is the word of no command. -/
theorem decode_reservedBits_iff {w : CommandWord} :
    decode w = .illegal .reservedBits ↔ (opcodeRow (opcodeByte w)).isSome ∧ ∀ i, encode i ≠ w := by
  rcases decode_cases w with ⟨hrow, hd⟩ | ⟨row, hrow, ⟨-, hd⟩ | hd⟩
  · simp [hrow, hd]
  · simp only [hd, hrow, reduceCtorEq, Option.isSome_some, true_and, false_iff, not_forall, not_not]
    exact ⟨_, encode_of_decode hd⟩
  · simp only [hd, hrow, Option.isSome_some, true_and, true_iff]
    rintro i rfl
    simp [decode_encode] at hd

/-- R78: of the 256 opcode bytes 237 are in no row. -/
theorem count_illegal_opcodes :
    ((List.range 256).filter fun n => (opcodeRow (BitVec.ofNat 8 n)).isNone).length = 237 := by
  decide +kernel

/-- Settles O4: no row means no opcode of Table O; with a row, the word decodes exactly if it is the word of
a command. -/
theorem illegalWordsAreExactlyTheOthers : Obligations.IllegalWordsAreExactlyTheOthers :=
  ⟨fun _ => decode_illegalOpcode_iff.trans opcodeRow_eq_none_iff, fun _ => decode_reservedBits_iff,
    count_illegal_opcodes⟩

/-- Settles O1: fixed words, so the decoder is run on each. -/
theorem specWordsDecode : Obligations.SpecWordsDecode := by
  unfold Obligations.SpecWordsDecode
  decide

end Sys2Proof
end

section
/-! Proofs about whole steps (00_scope.md, 60_exceptions.md, 70_reset_and_hazards.md): what a step answers
in each case, the table of refusals (R228), and the invariant of a run. -/

namespace Sys2Proof.Machine

/-! ## What a step answers, input by input (R8) -/

section

variable {s : State}

theorem step_badConfiguration (hc : ¬ s.cfg.WF) : step s = .refused .badConfiguration := if_neg hc

theorem step_without_input (hc : s.cfg.WF) (hin : s.inputs = []) : step s = .fault .sequenceEnded := by
  rw [step, guardConfig_wf hc, State.takeInput, hin]

theorem step_input (hc : s.cfg.WF) {input : HostInput} {rest : List HostInput}
    (hin : s.inputs = input :: rest) : step s = runInput input (s.setInputs rest) := by
  rw [step, guardConfig_wf hc, State.takeInput, hin]

theorem runInput_reset (s : State) : runInput .reset s = .next s.applyReset := rfl

theorem runInput_command {cmd : CommandWord} {i : Instr} (hd : decode cmd = .command i) (s : State) :
    runInput (.command cmd) s = exec i s := by
  rw [runInput, hd]

theorem runInput_illegal {cmd : CommandWord} {e : DecodeError} (hd : decode cmd = .illegal e) (s : State) :
    runInput (.command cmd) s = .refused (refusalOf e) := by
  rw [runInput, hd]

end

/-- A word placed by `withFetchWord` with all its 128 bits is the next input. -/
theorem tableWord_whole (w : Nat) : tableWord 128 w = BitVec.ofNat 128 w := by
  apply BitVec.eq_of_toNat_eq
  simp [tableWord]

/-- Settles O36: with a well-formed configuration a step is `runInput` of the first input, which for a word
that decodes is `exec` of its command. -/
theorem stepRunsTheDecodedCommand : Obligations.StepRunsTheDecodedCommand := by
  refine fun s i hc => ⟨fun cmd rest hin hd => ?_, fun w hd => ?_⟩
  · rw [step_input hc hin, runInput_command hd]; rfl
  · rw [← tableWord_whole] at hd
    rw [step_input (s := s.withFetchWord 128 w) hc rfl, runInput_command hd]; rfl

/-- Settles O37: a reset is the update `applyReset`, whose fields are these. -/
theorem resetLeavesNoValueHeld : Obligations.ResetLeavesNoValueHeld := by
  refine ⟨⟨rfl, rfl, rfl, rfl⟩, fun s rest hc hin => ⟨(s.setInputs rest).applyReset, ?_, ?_⟩⟩
  · rw [step_input hc hin, runInput_reset]
  · exact ⟨rfl, rfl, rfl, rfl, rfl, rfl, rfl, rfl⟩

/-! ## When a command is refused, and why (R223, R228) -/

/-- The rows of the table of refusals that a command can meet: it reads an element that holds no value. -/
inductive ReadsUnheld (s : State) : Instr → Refusal → Prop where
  | drawFP (unheld : s.holdsPselFP = false) (x y : Coord) (idx : Index) :
      ReadsUnheld s (.drawFP x y idx) .noPageSelectedFP
  | clearFP (unheld : s.holdsPselFP = false) (idx : Index) : ReadsUnheld s (.clearFP idx) .noPageSelectedFP
  | drawRD (unheld : s.holdsPselRD = false) (x y : Coord) (r g b : Channel) :
      ReadsUnheld s (.drawRD x y r g b) .noPageSelectedRD
  | clearRD (unheld : s.holdsPselRD = false) (r g b : Channel) :
      ReadsUnheld s (.clearRD r g b) .noPageSelectedRD
  | drawT4 (unheld : s.holdsT4 = false) (x y : Coord) (idx : Index) :
      ReadsUnheld s (.drawT4 x y idx) .noBufferT4
  | drawT8 (unheld : s.holdsT8 = false) (x y : Coord) (idx : Index) :
      ReadsUnheld s (.drawT8 x y idx) .noBufferT8

/-- A command whose value test passes answers a next state; any other is refused by its row. -/
inductive Completion (i : Instr) (s : State) : Result → Prop where
  | next (held : ValuesHeld i s) (t : State) : Completion i s (.next t)
  | refused {why : Refusal} (row : ReadsUnheld s i why) : Completion i s (.refused why)

theorem ReadsUnheld.not_valuesHeld {i : Instr} {s : State} {why : Refusal} (h : ReadsUnheld s i why) :
    ¬ ValuesHeld i s := by
  cases h <;> simpa [ValuesHeld]

section

variable {i : Instr} {s : State}

theorem completion_drawBitmap (held : ValuesHeld i s) (base w h : Nat) (n : CellSize) (x y : Coord) (v : Half) :
    Completion i s (drawBitmap base w h n x y v s) := by
  by_cases hb : InBounds w h x y
  · rw [drawBitmap_in hb]; exact .next held _
  · rw [drawBitmap_out hb]; exact .next held _

theorem completion_drawTile4 (held : ValuesHeld i s) (x y : Coord) (idx : Index) (b : Vector Word t4Words) :
    Completion i s (drawTile4 x y idx b s) := by
  by_cases hb : InBounds tileSide tileSide x y
  · rw [drawTile4_in hb]; exact .next held _
  · rw [drawTile4_out hb]; exact .next held _

theorem completion_drawTile8 (held : ValuesHeld i s) (x y : Coord) (idx : Index) (b : Vector Word t8Words) :
    Completion i s (drawTile8 x y idx b s) := by
  by_cases hb : InBounds tileSide tileSide x y
  · rw [drawTile8_in hb]; exact .next held _
  · rw [drawTile8_out hb]; exact .next held _

end

/-- The value test of the command decides (R223 (2)); behind it nothing refuses. -/
theorem exec_completion (i : Instr) (s : State) : Completion i s (exec i s) := by
  cases i with
  | drawFD x y r g b => exact completion_drawBitmap (by trivial) ..
  | drawFP x y idx =>
    cases held : s.holdsPselFP with
    | false => rw [exec_drawFP_unheld held]; exact .refused (.drawFP held x y idx)
    | true => rw [exec, execDrawFP, withPageFP_held held]; exact completion_drawBitmap (by exact held) ..
  | clearFP idx =>
    cases held : s.holdsPselFP with
    | false => rw [exec_clearFP_unheld held]; exact .refused (.clearFP held idx)
    | true => rw [exec, execClearFP, withPageFP_held held]; exact .next (by exact held) _
  | drawRD x y r g b =>
    cases held : s.holdsPselRD with
    | false => rw [exec_drawRD_unheld held]; exact .refused (.drawRD held x y r g b)
    | true => rw [exec, execDrawRD, withPageRD_held held]; exact completion_drawBitmap (by exact held) ..
  | clearRD r g b =>
    cases held : s.holdsPselRD with
    | false => rw [exec_clearRD_unheld held]; exact .refused (.clearRD held r g b)
    | true => rw [exec, execClearRD, withPageRD_held held]; exact .next (by exact held) _
  | drawT4 x y idx =>
    cases held : s.holdsT4 with
    | false => rw [exec_drawT4_unheld held]; exact .refused (.drawT4 held x y idx)
    | true => rw [exec, execDrawT4, withBufferT4_held held]; exact completion_drawTile4 (by exact held) ..
  | drawT8 x y idx =>
    cases held : s.holdsT8 with
    | false => rw [exec_drawT8_unheld held]; exact .refused (.drawT8 held x y idx)
    | true => rw [exec, execDrawT8, withBufferT8_held held]; exact completion_drawTile8 (by exact held) ..
  | clearFD | sizeFD | sizeFP | selectFP | sizeRD | selectRD | clearT4 | sizeT4 | newT4 | clearT8 | sizeT8
    | newT8 => exact .next (by trivial) _

/-- Settles O26: the value test of the command is all that decides. -/
theorem commandsCompleteExactlyWhenValuesHeld : Obligations.CommandsCompleteExactlyWhenValuesHeld := by
  intro i s
  cases h : exec i s with
  | next t => cases h ▸ exec_completion i s with | next held => exact ⟨fun _ => held, fun _ => ⟨t, rfl⟩⟩
  | refused why =>
    cases h ▸ exec_completion i s with
    | refused row => exact ⟨fun ⟨t, ht⟩ => by simp at ht, fun held => absurd held row.not_valuesHeld⟩
  | fault f => cases h ▸ exec_completion i s

theorem exec_ne_fault (i : Instr) (s : State) (f : Fault) : exec i s ≠ .fault f := by
  intro h
  cases h ▸ exec_completion i s

theorem exec_eq_refused_iff {i : Instr} {s : State} {why : Refusal} :
    exec i s = .refused why ↔ ReadsUnheld s i why := by
  constructor
  · intro h
    cases h ▸ exec_completion i s with
    | refused row => exact row
  · intro row
    cases row with
    | drawFP unheld => exact exec_drawFP_unheld unheld ..
    | clearFP unheld => exact exec_clearFP_unheld unheld ..
    | drawRD unheld => exact exec_drawRD_unheld unheld ..
    | clearRD unheld => exact exec_clearRD_unheld unheld ..
    | drawT4 unheld => exact exec_drawT4_unheld unheld ..
    | drawT8 unheld => exact exec_drawT8_unheld unheld ..

/-- The ways a step with a well-formed configuration goes. -/
inductive StepWay (s : State) : Prop where
  | noInput (hin : s.inputs = []) (hstep : step s = .fault .sequenceEnded)
  | reset (rest : List HostInput) (hin : s.inputs = .reset :: rest)
      (hstep : step s = .next (s.setInputs rest).applyReset)
  | illegal (cmd : CommandWord) (rest : List HostInput) (hin : s.inputs = .command cmd :: rest)
      (e : DecodeError) (hd : decode cmd = .illegal e) (hstep : step s = .refused (refusalOf e))
  | command (cmd : CommandWord) (rest : List HostInput) (hin : s.inputs = .command cmd :: rest)
      (i : Instr) (hd : decode cmd = .command i) (hstep : step s = exec i (s.setInputs rest))

theorem step_way {s : State} (hc : s.cfg.WF) : StepWay s := by
  cases hin : s.inputs with
  | nil => exact .noInput hin (step_without_input hc hin)
  | cons input rest =>
    cases input with
    | reset => exact .reset rest hin (step_input hc hin)
    | command cmd =>
      cases hd : decode cmd with
      | illegal e => exact .illegal cmd rest hin e hd ((step_input hc hin).trans (runInput_illegal hd _))
      | command i => exact .command cmd rest hin i hd ((step_input hc hin).trans (runInput_command hd _))

/-- Settles O27: no arm of `exec` answers a fault; of the ways a step goes only the one without input
does. -/
theorem nothingFaults : Obligations.NothingFaults := by
  refine ⟨exec_ne_fault, fun s => ⟨fun h => ?_, fun ⟨hc, hin⟩ => step_without_input hc hin⟩⟩
  by_cases hc : s.cfg.WF
  · cases step_way hc with
    | noInput hin => exact ⟨hc, hin⟩
    | reset _ _ hstep => simp [hstep] at h
    | illegal _ _ _ _ _ hstep => simp [hstep] at h
    | command _ _ _ _ _ hstep => exact absurd (hstep ▸ h) (exec_ne_fault _ _ _)
  · simp [step_badConfiguration hc] at h

/-- The rows that a command can meet, written out as R228 lists them. -/
theorem readsUnheld_iff {s : State} {i : Instr} {why : Refusal} : ReadsUnheld s i why ↔
    (why = .noPageSelectedFP ∧ s.holdsPselFP = false ∧
      ((∃ x y idx, i = .drawFP x y idx) ∨ ∃ idx, i = .clearFP idx)) ∨
    (why = .noPageSelectedRD ∧ s.holdsPselRD = false ∧
      ((∃ x y r g b, i = .drawRD x y r g b) ∨ ∃ r g b, i = .clearRD r g b)) ∨
    (why = .noBufferT4 ∧ s.holdsT4 = false ∧ ∃ x y idx, i = .drawT4 x y idx) ∨
    (why = .noBufferT8 ∧ s.holdsT8 = false ∧ ∃ x y idx, i = .drawT8 x y idx) := by
  constructor
  · rintro (h | h | h | h | h | h) <;> simp [h]
  · rintro (⟨rfl, h, ⟨x, y, idx, rfl⟩ | ⟨idx, rfl⟩⟩ | ⟨rfl, h, ⟨x, y, r, g, b, rfl⟩ | ⟨r, g, b, rfl⟩⟩ |
      ⟨rfl, h, x, y, idx, rfl⟩ | ⟨rfl, h, x, y, idx, rfl⟩)
    · exact .drawFP h x y idx
    · exact .clearFP h idx
    · exact .drawRD h x y r g b
    · exact .clearRD h r g b
    · exact .drawT4 h x y idx
    · exact .drawT8 h x y idx

/-- The input taken is no element that a command reads. -/
theorem readsUnheld_setInputs {s : State} {rest : List HostInput} {i : Instr} {why : Refusal} :
    ReadsUnheld (s.setInputs rest) i why ↔ ReadsUnheld s i why := by
  simp only [readsUnheld_iff, State.setInputs_holdsPselFP, State.setInputs_holdsPselRD,
    State.setInputs_holdsT4, State.setInputs_holdsT8]

/-- Settles O28: the configuration is tested first; behind it a step is refused by the decoder or, for a
command, by its row. -/
theorem refusalsAreExactlyTheTable : Obligations.RefusalsAreExactlyTheTable := by
  intro s why
  by_cases hc : s.cfg.WF
  · rw [eq_true hc]
    cases step_way hc with
    | noInput hin hstep => simp [hstep, hin]
    | reset rest hin hstep => simp [hstep, hin]
    | illegal cmd rest hin e hd hstep =>
      rw [hstep]
      cases e <;> simp [hin, hd, refusalOf, @eq_comm _ why]
    | command cmd rest hin i hd hstep =>
      rw [hstep, exec_eq_refused_iff, readsUnheld_setInputs, readsUnheld_iff]
      simp [hin, hd]
  · rw [eq_false hc]
    simp [step_badConfiguration hc, @eq_comm _ why]

/-! ## What no command changes -/

section

variable {i : Instr} {s t : State}

theorem Change.cfg_eq (h : Change i s t) : t.cfg = s.cfg := by cases h <;> rfl

theorem Change.inputs_eq (h : Change i s t) : t.inputs = s.inputs := by cases h <;> rfl

end

/-- Settles O40: a step takes the first input before anything else, and neither a reset nor a command
changes the configuration or the inputs left. -/
theorem noControlTransfer : Obligations.NoControlTransfer := by
  intro s t h
  obtain ⟨-, rest, ⟨hin, rfl⟩ | ⟨cmd, i, hin, -, hexec⟩⟩ := step_cases h
  · exact ⟨.reset, hin, rfl⟩
  · have change := exec_cases hexec
    exact ⟨.command cmd, by rw [change.inputs_eq, hin]; rfl, change.cfg_eq⟩

/-! ## The invariant -/

/-- R6 (e): the regions of all surfaces end inside the address space, so every byte a command may write
lies there (R63). -/
theorem mayWrite_inSpace {i : Instr} {s : State} {a : Nat} (hc : s.cfg.WF) (h : MayWrite i s a) :
    a < 2 ^ s.cfg.addrW := by
  obtain ⟨-, -, -, -, ⟨hFD, hFP0, hFP1, hRD0, hRD1⟩, -⟩ := hc
  rcases mayWrite_in_region h with h | h | h
  · exact h.2.trans_le hFD
  · cases hp : s.pselFP <;> rw [hp] at h
    · exact h.2.trans_le hFP0
    · exact h.2.trans_le hFP1
  · cases hp : s.pselRD <;> rw [hp] at h
    · exact h.2.trans_le hRD0
    · exact h.2.trans_le hRD1

theorem Change.keeps_inv {i : Instr} {s t : State} (h : Change i s t) (inv : Inv s) : Inv t := by
  obtain ⟨hc, hm, hspace⟩ := inv
  cases h with
  | cell addr n v draws inside =>
    refine ⟨hc, memWrite_wf hm addr n v, fun c hmem => ?_⟩
    rcases mem_memWrite hmem with ⟨hle, hlt⟩ | hold
    · exact mayWrite_inSpace hc (inside c.1 hle hlt)
    · exact hspace c hold
  | region base count n v clears inside =>
    refine ⟨hc, memFill_wf hm base count n v, fun c hmem => ?_⟩
    rcases mem_memFill hmem with ⟨hle, hlt⟩ | hold
    · exact mayWrite_inSpace hc (inside c.1 hle hlt)
    · exact hspace c hold
  | _ => exact ⟨hc, hm, hspace⟩

/-- Settles O39: a reset keeps configuration and storage; a command writes in canonical form, and only
bytes it may write, which lie in the address space. -/
theorem everyStepKeepsTheInvariant : Obligations.EveryStepKeepsTheInvariant := by
  intro s t inv h
  obtain ⟨hc, hm, hspace⟩ := inv
  obtain ⟨-, rest, ⟨-, rfl⟩ | ⟨cmd, i, -, -, hexec⟩⟩ := step_cases h
  · exact ⟨hc, hm, hspace⟩
  · exact (exec_cases hexec).keeps_inv ⟨hc, hm, hspace⟩

/-- Settles O38: Table P meets R6, and the storage lists no byte. -/
theorem resetMeetsTheInvariant : Obligations.ResetMeetsTheInvariant :=
  ⟨by decide, .nil, fun _ h => absurd h List.not_mem_nil⟩

end Sys2Proof.Machine
end

section
/-! Proofs of noninterference (10_state.md section 8, 20_memory.md R49): two states that agree on what a
command reads see the same update of their own contents. -/

namespace Sys2Proof.Machine

/-! ## The updates a command can make -/

/-- What a command does to a state, as data that depends on the elements it reads only. -/
inductive Update where
  | keep
  | cell (addr : Nat) (n : CellSize) (v : Half)
  | region (base count : Nat) (n : CellSize) (v : Half)
  | response (v : Word)
  | pageFP (p : Page)
  | pageRD (p : Page)
  | tile4 (v : Word)
  | tile8 (v : Word)
  | word4 (k : Nat) (v : Word)
  | word8 (k : Nat) (v : Word)

/-- The update performed on a state. -/
def Update.on : Update → State → State
  | .keep, s => s
  | .cell addr n v, s => s.setMem (memWrite s.cfg.byteOrder s.mem addr n v)
  | .region base count n v, s => s.setMem (memFill s.cfg.byteOrder s.mem base count n v)
  | .response v, s => s.respond v
  | .pageFP p, s => s.selectPageFP p
  | .pageRD p, s => s.selectPageRD p
  | .tile4 v, s => s.fillT4 v
  | .tile8 v, s => s.fillT8 v
  | .word4 k v, s => s.setWordT4 k v
  | .word8 k v, s => s.setWordT8 k v

/-- Column `T4` of the access matrix: the command reads `T4` (R35). -/
def ReadsT4 : Instr → Prop
  | .drawT4 _ _ _ => True
  | _ => False

/-- Column `T8` of the access matrix (R35). -/
def ReadsT8 : Instr → Prop
  | .drawT8 _ _ _ => True
  | _ => False

/-- Column `PSEL_FP` of the access matrix (R35). -/
def ReadsPselFP : Instr → Prop
  | .drawFP _ _ _ | .clearFP _ => True
  | _ => False

/-- Column `PSEL_RD` of the access matrix (R35). -/
def ReadsPselRD : Instr → Prop
  | .drawRD _ _ _ _ _ | .clearRD _ _ _ => True
  | _ => False

/-! ## Which updates a row shows (R35) -/

/-- The update writes all of `T4`. -/
def Update.IsTile4 : Update → Prop
  | .tile4 _ => True
  | _ => False

/-- The update writes all of `T8`. -/
def Update.IsTile8 : Update → Prop
  | .tile8 _ => True
  | _ => False

/-- The update selects a page of `FP`. -/
def Update.IsPageFP : Update → Prop
  | .pageFP _ => True
  | _ => False

/-- The update selects a page of `RD`. -/
def Update.IsPageRD : Update → Prop
  | .pageRD _ => True
  | _ => False

/-- The update writes one word of `T4`. -/
def Update.IsWord4 : Update → Prop
  | .word4 _ _ => True
  | _ => False

/-- The update writes one word of `T8`. -/
def Update.IsWord8 : Update → Prop
  | .word8 _ _ => True
  | _ => False

/-- The update is one that the row of the command shows (R35). -/
structure Update.Of (i : Instr) (u : Update) : Prop where
  fillsT4 : FillsT4 i ↔ u.IsTile4
  fillsT8 : FillsT8 i ↔ u.IsTile8
  writesPselFP : WritesPselFP i ↔ u.IsPageFP
  writesPselRD : WritesPselRD i ↔ u.IsPageRD
  wordT4 : u.IsWord4 → ReadsT4 i
  wordT8 : u.IsWord8 → ReadsT8 i

/-- The update fills no element and computes nothing from an old word. -/
def Update.Plain : Update → Prop
  | .keep | .cell _ _ _ | .region _ _ _ _ | .response _ => True
  | _ => False

theorem FillsNoElement.of_plain {i : Instr} (no : FillsNoElement i) {u : Update}
    (plain : u.Plain := by trivial) : u.Of i := by
  cases u with
  | keep | cell | region | response =>
    exact ⟨⟨no.t4, False.elim⟩, ⟨no.t8, False.elim⟩, ⟨no.pselFP, False.elim⟩, ⟨no.pselRD, False.elim⟩,
      False.elim, False.elim⟩
  | _ => exact plain.elim

/-! ## The same reads give the same update -/

/-- Two states agree on everything that a command reads: the configuration, which elements hold a value, and
the value of each element that the command's row shows as read (R32, R35). -/
structure SameReads (i : Instr) (s s' : State) : Prop where
  cfg : s'.cfg = s.cfg
  holdsT4 : s'.holdsT4 = s.holdsT4
  holdsT8 : s'.holdsT8 = s.holdsT8
  holdsPselFP : s'.holdsPselFP = s.holdsPselFP
  holdsPselRD : s'.holdsPselRD = s.holdsPselRD
  t4 : ReadsT4 i → s.holdsT4 = true → s'.t4 = s.t4
  t8 : ReadsT8 i → s.holdsT8 = true → s'.t8 = s.t8
  pselFP : ReadsPselFP i → s.holdsPselFP = true → s'.pselFP = s.pselFP
  pselRD : ReadsPselRD i → s.holdsPselRD = true → s'.pselRD = s.pselRD

/-- `t` comes from `s` and `t'` from `s'` by one update, which the row of the command shows. -/
def SameUpdate (i : Instr) (s s' t t' : State) : Prop := ∃ u : Update, u.Of i ∧ t = u.on s ∧ t' = u.on s'

section

variable {i : Instr} {s s' : State} {R : State → State → Prop}

theorem sameUpdate_next {u : Update} (hu : u.Of i) :
    Related (SameUpdate i s s') (.next (u.on s)) (.next (u.on s')) := ⟨u, hu, rfl, rfl⟩

theorem sameUpdate_drawBitmap (no : FillsNoElement i) {base w h : Nat} {n : CellSize} {x y : Coord}
    {v : Half} :
    Related (SameUpdate i s s') (drawBitmap base w h n x y v s) (drawBitmap base w h n x y v s') := by
  by_cases hb : InBounds w h x y
  · rw [drawBitmap_in hb, drawBitmap_in hb]; exact sameUpdate_next (u := .cell _ n v) no.of_plain
  · rw [drawBitmap_out hb, drawBitmap_out hb]; exact sameUpdate_next (u := .keep) no.of_plain

theorem sameUpdate_clearBitmap (no : FillsNoElement i) {base w h : Nat} {n : CellSize} {v : Half} :
    Related (SameUpdate i s s') (clearBitmap base w h n v s) (clearBitmap base w h n v s') :=
  sameUpdate_next (u := .region base (w * h) n v) no.of_plain

theorem sameUpdate_answerSize (no : FillsNoElement i) {w h : Nat} :
    Related (SameUpdate i s s') (answerSize w h s) (answerSize w h s') :=
  sameUpdate_next (u := .response (sizeWord w h)) no.of_plain

theorem sameUpdate_drawTile4 (no : FillsNoElement i) (reads : ReadsT4 i) {x y : Coord} {idx : Index}
    {b : Vector Word t4Words} :
    Related (SameUpdate i s s') (drawTile4 x y idx b s) (drawTile4 x y idx b s') := by
  by_cases hb : InBounds tileSide tileSide x y
  · rw [drawTile4_in hb, drawTile4_in hb]
    exact sameUpdate_next (u := .word4 _ _) { no.of_plain (u := .keep) trivial with wordT4 := fun _ => reads }
  · rw [drawTile4_out hb, drawTile4_out hb]; exact sameUpdate_next (u := .keep) no.of_plain

theorem sameUpdate_drawTile8 (no : FillsNoElement i) (reads : ReadsT8 i) {x y : Coord} {idx : Index}
    {b : Vector Word t8Words} :
    Related (SameUpdate i s s') (drawTile8 x y idx b s) (drawTile8 x y idx b s') := by
  by_cases hb : InBounds tileSide tileSide x y
  · rw [drawTile8_in hb, drawTile8_in hb]
    exact sameUpdate_next (u := .word8 _ _) { no.of_plain (u := .keep) trivial with wordT8 := fun _ => reads }
  · rw [drawTile8_out hb, drawTile8_out hb]; exact sameUpdate_next (u := .keep) no.of_plain

theorem SameReads.related_withPageFP (same : SameReads i s s') (reads : ReadsPselFP i)
    {k k' : Page → Result} (hk : ∀ p, Related R (k p) (k' p)) :
    Related R (withPageFP s k) (withPageFP s' k') := by
  cases held : s.holdsPselFP with
  | false => rw [withPageFP_unheld held, withPageFP_unheld (same.holdsPselFP.trans held)]; rfl
  | true =>
    rw [withPageFP_held held, withPageFP_held (same.holdsPselFP.trans held), same.pselFP reads held]
    exact hk _

theorem SameReads.related_withPageRD (same : SameReads i s s') (reads : ReadsPselRD i)
    {k k' : Page → Result} (hk : ∀ p, Related R (k p) (k' p)) :
    Related R (withPageRD s k) (withPageRD s' k') := by
  cases held : s.holdsPselRD with
  | false => rw [withPageRD_unheld held, withPageRD_unheld (same.holdsPselRD.trans held)]; rfl
  | true =>
    rw [withPageRD_held held, withPageRD_held (same.holdsPselRD.trans held), same.pselRD reads held]
    exact hk _

theorem SameReads.related_withBufferT4 (same : SameReads i s s') (reads : ReadsT4 i)
    {k k' : Vector Word t4Words → Result} (hk : ∀ b, Related R (k b) (k' b)) :
    Related R (withBufferT4 s k) (withBufferT4 s' k') := by
  cases held : s.holdsT4 with
  | false => rw [withBufferT4_unheld held, withBufferT4_unheld (same.holdsT4.trans held)]; rfl
  | true =>
    rw [withBufferT4_held held, withBufferT4_held (same.holdsT4.trans held), same.t4 reads held]
    exact hk _

theorem SameReads.related_withBufferT8 (same : SameReads i s s') (reads : ReadsT8 i)
    {k k' : Vector Word t8Words → Result} (hk : ∀ b, Related R (k b) (k' b)) :
    Related R (withBufferT8 s k) (withBufferT8 s' k') := by
  cases held : s.holdsT8 with
  | false => rw [withBufferT8_unheld held, withBufferT8_unheld (same.holdsT8.trans held)]; rfl
  | true =>
    rw [withBufferT8_held held, withBufferT8_held (same.holdsT8.trans held), same.t8 reads held]
    exact hk _

end

/-- A command that reads the same in two states makes the same update of both. -/
theorem exec_sameUpdate {i : Instr} {s s' : State} (same : SameReads i s s') :
    Related (SameUpdate i s s') (exec i s) (exec i s') := by
  have no : Draws i ∨ ClearsBitmap i ∨ Responds i → FillsNoElement i := fillsNoElement_of_kind
  cases i with
  | drawFD x y r g b =>
    simp only [exec, execDrawFD, same.cfg]
    exact sameUpdate_drawBitmap (no (.inl trivial))
  | clearFD r g b =>
    simp only [exec, execClearFD, same.cfg]
    exact sameUpdate_clearBitmap (no (.inr (.inl trivial)))
  | drawFP x y idx =>
    simp only [exec, execDrawFP, same.cfg]
    exact same.related_withPageFP trivial fun p => sameUpdate_drawBitmap (no (.inl trivial))
  | clearFP idx =>
    simp only [exec, execClearFP, same.cfg]
    exact same.related_withPageFP trivial fun p => sameUpdate_clearBitmap (no (.inr (.inl trivial)))
  | drawRD x y r g b =>
    simp only [exec, execDrawRD, same.cfg]
    exact same.related_withPageRD trivial fun p => sameUpdate_drawBitmap (no (.inl trivial))
  | clearRD r g b =>
    simp only [exec, execClearRD, same.cfg]
    exact same.related_withPageRD trivial fun p => sameUpdate_clearBitmap (no (.inr (.inl trivial)))
  | sizeFD | sizeFP | sizeRD | sizeT4 | sizeT8 =>
    simp only [exec, execSizeFD, execSizeFP, execSizeRD, execSizeT4, execSizeT8, same.cfg]
    exact sameUpdate_answerSize (no (.inr (.inr trivial)))
  | drawT4 x y idx =>
    simp only [exec, execDrawT4]
    exact same.related_withBufferT4 trivial fun b => sameUpdate_drawTile4 (no (.inl trivial)) trivial
  | drawT8 x y idx =>
    simp only [exec, execDrawT8]
    exact same.related_withBufferT8 trivial fun b => sameUpdate_drawTile8 (no (.inl trivial)) trivial
  | selectFP p => exact sameUpdate_next (u := .pageFP p) ⟨.rfl, .rfl, .rfl, .rfl, id, id⟩
  | selectRD p => exact sameUpdate_next (u := .pageRD p) ⟨.rfl, .rfl, .rfl, .rfl, id, id⟩
  | newT4 idx | clearT4 idx => exact sameUpdate_next (u := .tile4 _) ⟨.rfl, .rfl, .rfl, .rfl, id, id⟩
  | newT8 idx | clearT8 idx => exact sameUpdate_next (u := .tile8 _) ⟨.rfl, .rfl, .rfl, .rfl, id, id⟩

theorem Related.next_left {R : State → State → Prop} {t : State} {r : Result}
    (h : Related R (.next t) r) : ∃ t', r = .next t' ∧ R t t' := by
  cases r with
  | next t' => exact ⟨t', rfl, h⟩
  | _ => exact h.elim

theorem Related.mono {R R' : State → State → Prop} {r r' : Result} (h : Related R r r')
    (sub : ∀ t t', R t t' → R' t t') : Related R' r r' := by
  cases r with
  | next t =>
    obtain ⟨t', rfl, ht⟩ := h.next_left
    exact sub t t' ht
  | fault f => cases r' <;> exact h
  | refused why => cases r' <;> exact h

/-! ## The storage is never read (R49) -/

/-- Each byte after an update of the storage: written alike whatever was there, or as it was (R60, R61). -/
theorem Update.mem_read_on (u : Update) (s : State) (m : Memory) (a : Nat) :
    (u.on { s with mem := m }).mem.read a = (u.on s).mem.read a ∨
      ((u.on s).mem.read a = s.mem.read a ∧ (u.on { s with mem := m }).mem.read a = m.read a) := by
  cases u with
  | cell addr n v =>
    simp only [Update.on, State.setMem_mem, memWrite_read]
    cases cellByteAt s.cfg.byteOrder addr n v a with
    | none => exact .inr ⟨rfl, rfl⟩
    | some b => exact .inl rfl
  | region base count n v =>
    simp only [Update.on, State.setMem_mem, memFill_read]
    split
    · exact .inl rfl
    · exact .inr ⟨rfl, rfl⟩
  | _ => exact .inr ⟨rfl, rfl⟩

theorem Update.on_withMem (u : Update) (s : State) (m : Memory) :
    u.on { s with mem := m } = { u.on s with mem := (u.on { s with mem := m }).mem } := by
  cases u <;> rfl

/-- Settles O33: no command reads the storage, so both states see one update, which writes a byte alike in
both or leaves it in both. -/
theorem storageIsNeverRead : Obligations.StorageIsNeverRead := by
  intro i s m
  have same : SameReads i s { s with mem := m } :=
    ⟨rfl, rfl, rfl, rfl, rfl, fun _ _ => rfl, fun _ _ => rfl, fun _ _ => rfl, fun _ _ => rfl⟩
  refine (exec_sameUpdate same).mono ?_
  rintro _ _ ⟨u, -, rfl, rfl⟩
  exact ⟨u.on_withMem s m, fun a => u.mem_read_on s m a⟩

/-! ## What the read columns leave out (R35) -/

/-- An update that does not touch `T4` commutes with a change of `T4`; one that fills it hides the change. -/
theorem Update.on_withT4 {i : Instr} {u : Update} (hu : u.Of i) (unread : ¬ ReadsT4 i) (s : State)
    (v : Vector Word t4Words) :
    (FillsT4 i ∧ u.on { s with t4 := v } = u.on s) ∨
      (¬ FillsT4 i ∧ u.on { s with t4 := v } = { u.on s with t4 := v }) := by
  cases u with
  | tile4 => exact .inl ⟨hu.fillsT4.mpr trivial, rfl⟩
  | word4 => exact absurd (hu.wordT4 trivial) unread
  | _ => exact .inr ⟨hu.fillsT4.mp, rfl⟩

theorem Update.on_withT8 {i : Instr} {u : Update} (hu : u.Of i) (unread : ¬ ReadsT8 i) (s : State)
    (v : Vector Word t8Words) :
    (FillsT8 i ∧ u.on { s with t8 := v } = u.on s) ∨
      (¬ FillsT8 i ∧ u.on { s with t8 := v } = { u.on s with t8 := v }) := by
  cases u with
  | tile8 => exact .inl ⟨hu.fillsT8.mpr trivial, rfl⟩
  | word8 => exact absurd (hu.wordT8 trivial) unread
  | _ => exact .inr ⟨hu.fillsT8.mp, rfl⟩

theorem Update.on_withPselFP {i : Instr} {u : Update} (hu : u.Of i) (s : State) (p : Page) :
    (WritesPselFP i ∧ u.on { s with pselFP := p } = u.on s) ∨
      (¬ WritesPselFP i ∧ u.on { s with pselFP := p } = { u.on s with pselFP := p }) := by
  cases u with
  | pageFP => exact .inl ⟨hu.writesPselFP.mpr trivial, rfl⟩
  | _ => exact .inr ⟨hu.writesPselFP.mp, rfl⟩

theorem Update.on_withPselRD {i : Instr} {u : Update} (hu : u.Of i) (s : State) (p : Page) :
    (WritesPselRD i ∧ u.on { s with pselRD := p } = u.on s) ∨
      (¬ WritesPselRD i ∧ u.on { s with pselRD := p } = { u.on s with pselRD := p }) := by
  cases u with
  | pageRD => exact .inl ⟨hu.writesPselRD.mpr trivial, rfl⟩
  | _ => exact .inr ⟨hu.writesPselRD.mp, rfl⟩

theorem not_readsT4 {i : Instr} (h : ∀ x y idx, i ≠ .drawT4 x y idx) : ¬ ReadsT4 i := by
  cases i with
  | drawT4 x y idx => exact absurd rfl (h x y idx)
  | _ => exact id

theorem not_readsT8 {i : Instr} (h : ∀ x y idx, i ≠ .drawT8 x y idx) : ¬ ReadsT8 i := by
  cases i with
  | drawT8 x y idx => exact absurd rfl (h x y idx)
  | _ => exact id

theorem not_readsPselFP {i : Instr} (hdraw : ∀ x y idx, i ≠ .drawFP x y idx)
    (hclear : ∀ idx, i ≠ .clearFP idx) : ¬ ReadsPselFP i := by
  cases i with
  | drawFP x y idx => exact absurd rfl (hdraw x y idx)
  | clearFP idx => exact absurd rfl (hclear idx)
  | _ => exact id

theorem not_readsPselRD {i : Instr} (hdraw : ∀ x y r g b, i ≠ .drawRD x y r g b)
    (hclear : ∀ r g b, i ≠ .clearRD r g b) : ¬ ReadsPselRD i := by
  cases i with
  | drawRD x y r g b => exact absurd rfl (hdraw x y r g b)
  | clearRD r g b => exact absurd rfl (hclear r g b)
  | _ => exact id

/-- Settles O34: a state with another value in an element that the command does not read sees the same
update, which commutes with that other value or overwrites it. -/
theorem commandsReadOnlyWhatTheMatrixShows : Obligations.CommandsReadOnlyWhatTheMatrixShows := by
  refine fun i s v4 v8 p => ⟨fun h => ?t4, fun h => ?t8, fun hdraw hclear => ?fp, fun hdraw hclear => ?rd⟩
  case t4 =>
    have unread := not_readsT4 h
    refine (exec_sameUpdate (s := s) (s' := { s with t4 := v4 }) ⟨rfl, rfl, rfl, rfl, rfl,
      fun reads => absurd reads unread, fun _ _ => rfl, fun _ _ => rfl, fun _ _ => rfl⟩).mono ?_
    rintro _ _ ⟨u, hu, rfl, rfl⟩
    exact u.on_withT4 hu unread s v4
  case t8 =>
    have unread := not_readsT8 h
    refine (exec_sameUpdate (s := s) (s' := { s with t8 := v8 }) ⟨rfl, rfl, rfl, rfl, rfl,
      fun _ _ => rfl, fun reads => absurd reads unread, fun _ _ => rfl, fun _ _ => rfl⟩).mono ?_
    rintro _ _ ⟨u, hu, rfl, rfl⟩
    exact u.on_withT8 hu unread s v8
  case fp =>
    refine (exec_sameUpdate (s := s) (s' := { s with pselFP := p }) ⟨rfl, rfl, rfl, rfl, rfl, fun _ _ => rfl,
      fun _ _ => rfl, fun reads => absurd reads (not_readsPselFP hdraw hclear), fun _ _ => rfl⟩).mono ?_
    rintro _ _ ⟨u, hu, rfl, rfl⟩
    exact u.on_withPselFP hu s p
  case rd =>
    refine (exec_sameUpdate (s := s) (s' := { s with pselRD := p }) ⟨rfl, rfl, rfl, rfl, rfl, fun _ _ => rfl,
      fun _ _ => rfl, fun _ _ => rfl, fun reads => absurd reads (not_readsPselRD hdraw hclear)⟩).mono ?_
    rintro _ _ ⟨u, hu, rfl, rfl⟩
    exact u.on_withPselRD hu s p

/-! ## What an element contains while it holds no value (R32) -/

section

variable {s s' : State}

theorem AgreeOnHeld.sameReads (agree : AgreeOnHeld s s') (i : Instr) : SameReads i s s' :=
  ⟨agree.cfg, agree.holdsT4, agree.holdsT8, agree.holdsPselFP, agree.holdsPselRD, fun _ => agree.t4,
    fun _ => agree.t8, fun _ => agree.pselFP, fun _ => agree.pselRD⟩

theorem AgreeOnHeld.t4q_eq (agree : AgreeOnHeld s s') : s'.t4q = s.t4q := by
  cases held : s.holdsT4 with
  | false => simp [State.t4q, agree.holdsT4, held]
  | true => simp [State.t4q, agree.holdsT4, held, agree.t4 held]

theorem AgreeOnHeld.t8q_eq (agree : AgreeOnHeld s s') : s'.t8q = s.t8q := by
  cases held : s.holdsT8 with
  | false => simp [State.t8q, agree.holdsT8, held]
  | true => simp [State.t8q, agree.holdsT8, held, agree.t8 held]

theorem AgreeOnHeld.setInputs (agree : AgreeOnHeld s s') (rest : List HostInput) :
    AgreeOnHeld (s.setInputs rest) (s'.setInputs rest) :=
  { agree with inputs := rfl }

/-- A reset makes all four elements alike. -/
theorem AgreeOnHeld.applyReset (agree : AgreeOnHeld s s') : AgreeOnHeld s.applyReset s'.applyReset :=
  { agree with
    holdsT4 := rfl, holdsT8 := rfl, holdsPselFP := rfl, holdsPselRD := rfl
    t4 := fun _ => rfl, t8 := fun _ => rfl, pselFP := fun _ => rfl, pselRD := fun _ => rfl }

/-- An update that fills an element makes it alike in both states; a tile word is written into a buffer that
is alike already where it holds a value. -/
theorem AgreeOnHeld.update (agree : AgreeOnHeld s s') (u : Update) : AgreeOnHeld (u.on s) (u.on s') := by
  cases u with
  | keep => exact agree
  | cell addr n v => exact { agree with mem := by simp only [Update.on, State.setMem_mem, agree.mem, agree.cfg] }
  | region base count n v =>
    exact { agree with mem := by simp only [Update.on, State.setMem_mem, agree.mem, agree.cfg] }
  | response v => exact { agree with responses := congrArg (· ++ [v]) agree.responses }
  | pageFP p => exact { agree with holdsPselFP := rfl, pselFP := fun _ => rfl }
  | pageRD p => exact { agree with holdsPselRD := rfl, pselRD := fun _ => rfl }
  | tile4 v => exact { agree with holdsT4 := rfl, t4 := fun _ => rfl }
  | tile8 v => exact { agree with holdsT8 := rfl, t8 := fun _ => rfl }
  | word4 k v => exact { agree with t4 := fun held => congrArg (·.setIfInBounds k v) (agree.t4 held) }
  | word8 k v => exact { agree with t8 := fun held => congrArg (·.setIfInBounds k v) (agree.t8 held) }

theorem AgreeOnHeld.exec_related (agree : AgreeOnHeld s s') (i : Instr) :
    Related AgreeOnHeld (exec i s) (exec i s') := by
  refine (exec_sameUpdate (agree.sameReads i)).mono ?_
  rintro _ _ ⟨u, -, rfl, rfl⟩
  exact agree.update u

theorem AgreeOnHeld.runInput_related (agree : AgreeOnHeld s s') (input : HostInput) :
    Related AgreeOnHeld (runInput input s) (runInput input s') := by
  cases input with
  | reset => exact agree.applyReset
  | command cmd =>
    cases hd : decode cmd with
    | illegal e => rw [runInput_illegal hd, runInput_illegal hd]; rfl
    | command i => rw [runInput_command hd, runInput_command hd]; exact agree.exec_related i

theorem AgreeOnHeld.step_related (agree : AgreeOnHeld s s') : Related AgreeOnHeld (step s) (step s') := by
  by_cases hc : s.cfg.WF
  · have hc' : s'.cfg.WF := agree.cfg ▸ hc
    cases hin : s.inputs with
    | nil => rw [step_without_input hc hin, step_without_input hc' (agree.inputs.trans hin)]; rfl
    | cons input rest =>
      rw [step_input hc hin, step_input hc' (agree.inputs.trans hin)]
      exact (agree.setInputs rest).runInput_related input
  · have hc' : ¬ s'.cfg.WF := agree.cfg ▸ hc
    rw [step_badConfiguration hc, step_badConfiguration hc']; rfl

end

/-- Settles O35: what a step reads are held elements, on which the states agree; so both see the same
update, and no update takes them apart again. -/
theorem unheldContentsAreUnobservable : Obligations.UnheldContentsAreUnobservable :=
  fun _ _ agree => ⟨agree.t4q_eq, agree.t8q_eq, agree.step_related⟩

/-! ## What the write columns leave out (R35) -/

section

variable {i : Instr} {s t : State}

theorem FillsT4.mayWriteWord (h : FillsT4 i) (k : Nat) : MayWriteWordT4 i k := by
  obtain ⟨idx, rfl | rfl⟩ := fillsT4_iff.mp h <;> trivial

theorem FillsT8.mayWriteWord (h : FillsT8 i) (k : Nat) : MayWriteWordT8 i k := by
  obtain ⟨idx, rfl | rfl⟩ := fillsT8_iff.mp h <;> trivial

theorem Change.t4_word_of_not_mayWrite (h : Change i s t) {k : Nat} (hk : k < t4Words)
    (hw : ¬ MayWriteWordT4 i k) : t.t4[k] = s.t4[k] := by
  cases h with
  | tile4 v fills => exact absurd (FillsT4.mayWriteWord fills k) hw
  | word4 j v held draws writes =>
    have hne : j ≠ k := fun e => hw (e ▸ writes)
    simp only [State.setWordT4_t4, Vector.getElem_setIfInBounds, hne, if_false]
  | _ => rfl

theorem Change.t8_word_of_not_mayWrite (h : Change i s t) {k : Nat} (hk : k < t8Words)
    (hw : ¬ MayWriteWordT8 i k) : t.t8[k] = s.t8[k] := by
  cases h with
  | tile8 v fills => exact absurd (FillsT8.mayWriteWord fills k) hw
  | word8 j v held draws writes =>
    have hne : j ≠ k := fun e => hw (e ▸ writes)
    simp only [State.setWordT8_t8, Vector.getElem_setIfInBounds, hne, if_false]
  | _ => rfl

theorem Change.pselFP_of_not_writes (h : Change i s t) (hw : ¬ WritesPselFP i) : t.pselFP = s.pselFP := by
  cases h with
  | pageFP p isSelect => subst isSelect; exact absurd trivial hw
  | _ => rfl

theorem Change.pselRD_of_not_writes (h : Change i s t) (hw : ¬ WritesPselRD i) : t.pselRD = s.pselRD := by
  cases h with
  | pageRD p isSelect => subst isSelect; exact absurd trivial hw
  | _ => rfl

theorem Change.responses_grow (h : Change i s t) :
    ∃ more, t.responses = s.responses ++ more ∧ more.length ≤ 1 := by
  cases h with
  | response v => exact ⟨[v], rfl, le_rfl⟩
  | _ => exact ⟨[], (List.append_nil _).symm, Nat.zero_le 1⟩

end

/-- Settles O29: of the changes a command can make, each touches what its row shows and nothing else. -/
theorem commandsWriteOnlyWhatTheMatrixShows : Obligations.CommandsWriteOnlyWhatTheMatrixShows := by
  intro i s t hexec
  have change := exec_cases hexec
  exact ⟨fun _ => change.t4_word_of_not_mayWrite, fun _ => change.t8_word_of_not_mayWrite,
    change.pselFP_of_not_writes, change.pselRD_of_not_writes, fun _ => change.mem_read_of_not_mayWrite,
    change.responses_of_not_responds, change.responses_grow, change.cfg_eq, change.inputs_eq⟩

/-! ## A run (R253) -/

theorem Update.on_setInputs (u : Update) (s : State) (l : List HostInput) :
    u.on (s.setInputs l) = (u.on s).setInputs l := by cases u <;> rfl

/-- The inputs still to come do not matter to a command, which keeps them. -/
theorem exec_setInputs_next {i : Instr} {s t : State} (h : exec i s = .next t) (l : List HostInput) :
    exec i (s.setInputs l) = .next (t.setInputs l) := by
  have related := exec_sameUpdate (i := i) (s := s) (s' := s.setInputs l)
    ⟨rfl, rfl, rfl, rfl, rfl, fun _ _ => rfl, fun _ _ => rfl, fun _ _ => rfl, fun _ _ => rfl⟩
  rw [h] at related
  obtain ⟨_, hnext, u, -, rfl, rfl⟩ := related.next_left
  rw [hnext, u.on_setInputs]

theorem exec_setInputs_refused {i : Instr} {s : State} {why : Refusal} (h : exec i s = .refused why)
    (l : List HostInput) : exec i (s.setInputs l) = .refused why := by
  rwa [exec_eq_refused_iff, readsUnheld_setInputs, ← exec_eq_refused_iff]

/-- From any state with a well-formed configuration, the steps over legal command words are the commands
one after the other; in `s` itself the words are not yet presented. -/
theorem stepTimes_eq_execSeq {cmds : List CommandWord} {is : List Instr}
    (hd : cmds.map decode = is.map Decoded.command) {s : State} (hc : s.cfg.WF) (hin : s.inputs = []) :
    stepTimes cmds.length (s.setInputs (cmds.map .command)) = execSeq is s := by
  induction cmds generalizing is s with
  | nil =>
    obtain rfl : is = [] := by simpa using hd.symm
    exact congrArg Host.Outcome.next (by rw [List.map_nil, ← hin]; rfl)
  | cons cmd cmds ih =>
    cases is with
    | nil => simp at hd
    | cons i is =>
      obtain ⟨hcmd, hrest⟩ : decode cmd = .command i ∧ cmds.map decode = is.map Decoded.command := by
        simpa using hd
      have hstep : step (s.setInputs ((cmd :: cmds).map .command)) =
          exec i (s.setInputs (cmds.map .command)) :=
        (step_input (s := s.setInputs (.command cmd :: cmds.map .command)) hc rfl).trans
          (runInput_command hcmd _)
      simp only [List.length_cons, stepTimes, hstep, execSeq]
      cases hs : exec i s with
      | next t =>
        have change := exec_cases hs
        simp only [exec_setInputs_next hs]
        exact ih hrest (change.cfg_eq ▸ hc) (change.inputs_eq.trans hin)
      | refused why => simp only [exec_setInputs_refused hs]
      | fault f => exact absurd hs (exec_ne_fault i s f)

/-- Settles O41: a run starts from the state after reset with the words presented, and each step takes the
next word and runs its command. -/
theorem runIsItsCommandsInOrder : Obligations.RunIsItsCommandsInOrder :=
  fun cfg mem _ _ hc hd => stepTimes_eq_execSeq (s := runStart cfg mem []) hd hc rfl

end Sys2Proof.Machine
end

section
/-! Proofs about colours and coordinates (40_color_coordinate.md, 20_memory.md section 3): unpacking a native
word, the slot of a tile coordinate, alignment of cells. -/

namespace Sys2Proof.Machine

/-! ## Unpacking and packing a direct colour (R102) -/

theorem channelAt_getLsbD {pos : Nat} (c : Channel) {i : Nat} (hi : i < 16) :
    (channelAt pos c).getLsbD i = (decide (pos ≤ i) && c.getLsbD (i - pos)) := by
  by_cases h : i < pos
  · simp [channelAt, hi, h]
  · simp [channelAt, hi, h, Nat.le_of_not_lt h]

/-- The field at a position reads back the channel placed there. -/
theorem extract_channelAt_same {pos : Nat} (hpos : pos ≤ 10) (c : Channel) :
    (channelAt pos c).extractLsb' pos 5 = c := by
  apply BitVec.eq_of_getLsbD_eq
  intro i hi
  rw [BitVec.getLsbD_extractLsb', channelAt_getLsbD c (by omega)]
  simp [hi]

/-- A channel placed five bits or more away leaves no bit in a field. -/
theorem extract_channelAt_apart {pos pos' : Nat} (hpos : pos ≤ 10) (hpos' : pos' + 5 ≤ pos ∨ pos + 5 ≤ pos')
    (c : Channel) : (channelAt pos' c).extractLsb' pos 5 = 0 := by
  apply BitVec.eq_of_getLsbD_eq
  intro i hi
  rw [BitVec.getLsbD_extractLsb', channelAt_getLsbD c (by omega)]
  rcases hpos' with h | h
  · rw [BitVec.getLsbD_of_ge c _ (by omega)]; simp
  · simp [show ¬ pos' ≤ pos + i by omega]

/-- R6 (c) as inequalities: two of the three fields never overlap. -/
theorem chPos_apart_of_channelsTile {cfg : Config} (h : cfg.ChannelsTile) :
    (cfg.chPosG + 5 ≤ cfg.chPosR ∨ cfg.chPosR + 5 ≤ cfg.chPosG) ∧
    (cfg.chPosB + 5 ≤ cfg.chPosR ∨ cfg.chPosR + 5 ≤ cfg.chPosB) ∧
    (cfg.chPosB + 5 ≤ cfg.chPosG ∨ cfg.chPosG + 5 ≤ cfg.chPosB) := by
  simp only [Config.ChannelsTile, List.mem_cons, List.not_mem_nil, or_false] at h
  omega

theorem unpack15_pack15 {cfg : Config} (h : cfg.ChannelsTile) (r g b : Channel) :
    unpack15 cfg (pack15 cfg r g b) = (r, g, b) := by
  obtain ⟨hr, hg, hb⟩ := chPos_le_of_channelsTile h
  obtain ⟨hrg, hrb, hgb⟩ := chPos_apart_of_channelsTile h
  simp only [unpack15, pack15, BitVec.extractLsb'_or, extract_channelAt_same hr, extract_channelAt_same hg,
    extract_channelAt_same hb, extract_channelAt_apart hr hrg, extract_channelAt_apart hr hrb,
    extract_channelAt_apart hg hrg.symm, extract_channelAt_apart hg hgb, extract_channelAt_apart hb hrb.symm,
    extract_channelAt_apart hb hgb.symm, BitVec.or_zero, BitVec.zero_or, BitVec.ofNat_eq_ofNat]

theorem pack15_injective {cfg : Config} (h : cfg.ChannelsTile) {r g b r' g' b' : Channel}
    (e : pack15 cfg r g b = pack15 cfg r' g' b') : r = r' ∧ g = g' ∧ b = b' := by
  have hunpack := congrArg (unpack15 cfg) e
  rw [unpack15_pack15 h, unpack15_pack15 h] at hunpack
  simpa using hunpack

/-- Bit 15 lies above the field of every channel. -/
theorem extract_flip_bit15 {pos : Nat} (hpos : pos ≤ 10) (w : Half) :
    (w ^^^ 0x8000).extractLsb' pos 5 = w.extractLsb' pos 5 := by
  have top : ∀ i < 15, (0x8000 : Half).getLsbD i = false := by decide
  apply BitVec.eq_of_getLsbD_eq
  intro i hi
  rw [BitVec.getLsbD_extractLsb', BitVec.getLsbD_extractLsb', BitVec.getLsbD_xor, top _ (by omega),
    Bool.xor_false]

theorem unpack15_flip_bit15 {cfg : Config} (h : cfg.ChannelsTile) (w : Half) :
    unpack15 cfg (w ^^^ 0x8000) = unpack15 cfg w := by
  obtain ⟨hr, hg, hb⟩ := chPos_le_of_channelsTile h
  simp only [unpack15, extract_flip_bit15 hr, extract_flip_bit15 hg, extract_flip_bit15 hb]

/-- A field put back in its place keeps the bits of the word inside the field and clears the others. -/
theorem channelAt_extract_getLsbD (pos : Nat) (w : Half) {i : Nat} (hi : i < 16) :
    (channelAt pos (w.extractLsb' pos 5)).getLsbD i =
      (decide (pos ≤ i ∧ i < pos + 5) && w.getLsbD i) := by
  rw [channelAt_getLsbD _ hi, BitVec.getLsbD_extractLsb']
  by_cases hpos : pos ≤ i
  · simp [hpos, show pos + (i - pos) = i by omega, show i - pos < 5 ↔ i < pos + 5 by omega]
  · simp [hpos]

/-- The three fields together are the bits below 15. -/
theorem pack15_unpack15 {cfg : Config} (h : cfg.ChannelsTile) (w : Half) :
    pack15 cfg (unpack15 cfg w).1 (unpack15 cfg w).2.1 (unpack15 cfg w).2.2 = w &&& 0x7FFF := by
  have low : ∀ i < 16, (0x7FFF : Half).getLsbD i = decide (i < 15) := by decide
  simp only [Config.ChannelsTile, List.mem_cons, List.not_mem_nil, or_false] at h
  apply BitVec.eq_of_getLsbD_eq
  intro i hi
  simp only [pack15, unpack15, BitVec.getLsbD_or, BitVec.getLsbD_and, channelAt_extract_getLsbD _ w hi,
    low i hi, ← Bool.and_or_distrib_right, ← Bool.decide_or]
  rw [Bool.and_comm]
  congr 2
  exact propext (by omega)

/-- Settles O8: the three fields do not overlap and fill the bits below 15. -/
theorem colourConversionIsLossless : Obligations.ColourConversionIsLossless := by
  intro cfg hwf
  obtain ⟨-, -, htile, -⟩ := hwf
  exact ⟨fun _ => rfl, unpack15_flip_bit15 htile, unpack15_pack15 htile,
    fun _ _ _ _ _ _ => pack15_injective htile, pack15_unpack15 htile⟩

/-! ## The slot of a tile coordinate (R107) -/

theorem slot_toInt {x y : Coord} (hb : InBounds tileSide tileSide x y) :
    (slot x y : Int) = x.toInt + 8 * y.toInt := by
  obtain ⟨hx, -, hy, -⟩ := hb
  simp only [slot, coordNat]; omega

/-- Settles O9: the slot determines `x` and `y` as remainder and quotient by 8; the rest is division by 4
and 8. -/
theorem slotArithmetic : Obligations.SlotArithmetic := by
  intro x y hb
  have hslot := slot_toInt hb
  have hlt := slot_lt hb
  obtain ⟨hx, hx8, hy, hy8⟩ := hb
  refine ⟨hslot, hlt, fun i => ⟨rfl, rfl, rfl, rfl⟩, ?_⟩
  simp only [widx4, off4, widx8, off8, List.mem_cons, List.not_mem_nil, or_false]
  generalize slot x y = i at hslot hlt
  refine ⟨?_, ?_, ?_, ?_, ?_, ?_, ?_, ?_⟩ <;> omega

/-! ## Alignment and the top of the address space (R46, R63) -/

theorem cellAddr_mod_bytes {base : Nat} {n : CellSize} (hbase : base % n.bytes = 0) (w : Nat) (x y : Coord) :
    cellAddr base w n x y % n.bytes = 0 := by
  rw [cellAddr, Nat.add_mul_mod_self_left, hbase]

theorem cellAddr_end_le {base w h bound : Nat} {n : CellSize} (hfit : base + w * h * n.bytes ≤ bound)
    {x y : Coord} (hb : InBounds w h x y) : cellAddr base w n x y + n.bytes ≤ bound :=
  (cellAddr_in_region hb).2.trans hfit

section

variable {cfg : Config}

theorem regionFP_fits (hfit : cfg.RegionsFit) (p : Page) :
    cfg.baseFP p + cfg.wFull * cfg.hFull * cfg.cellbFP.val.bytes ≤ 2 ^ cfg.addrW := by
  obtain ⟨-, h0, h1, -, -⟩ := hfit
  cases p
  · exact h0
  · exact h1

theorem regionRD_fits (hfit : cfg.RegionsFit) (p : Page) :
    cfg.baseRD p + cfg.wRed * cfg.hRed * cfg.cellbRD.val.bytes ≤ 2 ^ cfg.addrW := by
  obtain ⟨-, -, -, h0, h1⟩ := hfit
  cases p
  · exact h0
  · exact h1

theorem baseRD_aligned (halign : cfg.BasesAligned) (p : Page) : cfg.baseRD p % cfg.cellbRD.val.bytes = 0 := by
  obtain ⟨-, -, -, h0, h1⟩ := halign
  cases p
  · exact h0
  · exact h1

end

/-- Settles O12: a cell starts a multiple of its size after an aligned base, and its region ends inside the
address space. -/
theorem cellAddressesAlignedAndInSpace : Obligations.CellAddressesAlignedAndInSpace := by
  intro cfg hwf
  obtain ⟨-, -, -, halign, hfit, -⟩ := hwf
  refine ⟨fun x y hb => ⟨?evenFD, ?endFD, fun p => ?endFP⟩, fun x y hb p => ⟨?evenRD, ?endRD⟩⟩
  case evenFD => exact cellAddr_mod_bytes halign.1 ..
  case endFD => exact cellAddr_end_le hfit.1 hb
  case endFP => exact cellAddr_end_le (regionFP_fits hfit p) hb
  case evenRD => exact cellAddr_mod_bytes (baseRD_aligned halign p) ..
  case endRD => exact cellAddr_end_le (regionRD_fits hfit p) hb

end Sys2Proof.Machine
end

section
/-! Proofs about the storage (20_memory.md sections 3 and 5): the byte order of a cell, and that `MemFill` is
its cell writes in whatever order. -/

namespace Sys2Proof.Machine

/-- Settles O13: a 16-bit cell reads as a value exactly when its two bytes are that value's; a write puts
just those two bytes there. -/
theorem cellsAreLittleEndian : Obligations.CellsAreLittleEndian := by
  refine ⟨rfl, fun m a v => ⟨memRead_two_eq_some, fun order => ⟨memRead_memWrite_two m a v, ?_⟩⟩⟩
  intro b hb hb'
  exact memWrite_read_outside (n := .two) (by simp only [CellSize.bytes]; omega)

variable {order : ByteOrder}

/-- A cell covers each of its `n` bytes. -/
theorem cellByteAt_isSome {addr : Nat} {n : CellSize} {a : Nat} (v : Half) (hle : addr ≤ a)
    (hlt : a < addr + n.bytes) : (cellByteAt order addr n v a).isSome := by
  cases n <;> simp only [CellSize.bytes] at hlt
  · rw [cellByteAt_one, if_pos (by omega)]; rfl
  · rw [cellByteAt_two]
    by_cases hfirst : a = addr
    · rw [if_pos hfirst]; rfl
    · rw [if_neg hfirst, if_pos (by omega)]; rfl

/-- A second write to a cell leaves nothing of the first (R54 (c)). -/
theorem memWrite_memWrite {m : Memory} (hm : m.wf) (addr : Nat) (n : CellSize) (v v' : Half) :
    memWrite order (memWrite order m addr n v) addr n v' = memWrite order m addr n v' := by
  refine Memory.ext_of_wf (memWrite_wf (memWrite_wf hm ..) ..) (memWrite_wf hm ..) fun a => ?_
  rw [memWrite_read, memWrite_read, memWrite_read]
  by_cases h : addr ≤ a ∧ a < addr + n.bytes
  · obtain ⟨b, hb⟩ := Option.isSome_iff_exists.mp (cellByteAt_isSome (order := order) v' h.1 h.2)
    simp [hb]
  · rw [cellByteAt_eq_none (v := v) (by omega), Option.none_or]

/-! ## Cell writes of one value -/

/-- The `MemWrite` of each numbered cell of a region, in the order of the list. -/
def writeCells (order : ByteOrder) (base : Nat) (n : CellSize) (v : Half) (ks : List Nat) (m : Memory) : Memory :=
  ks.foldl (fun m k => memWrite order m (base + n.bytes * k) n v) m

theorem writeCells_cons (base : Nat) (n : CellSize) (v : Half) (k : Nat) (ks : List Nat) (m : Memory) :
    writeCells order base n v (k :: ks) m =
      writeCells order base n v ks (memWrite order m (base + n.bytes * k) n v) := rfl

theorem writeCells_wf {m : Memory} (hm : m.wf) (base : Nat) (n : CellSize) (v : Half) (ks : List Nat) :
    (writeCells order base n v ks m).wf := by
  induction ks generalizing m with
  | nil => exact hm
  | cons k ks ih => exact ih (memWrite_wf hm ..)

/-- An address lies in the cell whose number is the quotient of its offset by the cell size. -/
theorem mem_cell_iff {base a k : Nat} {n : CellSize} (ha : base ≤ a) :
    (base + n.bytes * k ≤ a ∧ a < base + n.bytes * k + n.bytes) ↔ (a - base) / n.bytes = k := by
  rw [Nat.div_eq_iff (bytes_pos n), Nat.mul_comm k]
  have := bytes_pos n
  omega

/-- A read after writing cells of one value: the byte of the value where the list names the cell that the
address lies in, the old byte elsewhere. -/
theorem writeCells_read (base : Nat) (n : CellSize) (v : Half) (ks : List Nat) (m : Memory) (a : Nat) :
    (writeCells order base n v ks m).read a =
      if base ≤ a ∧ (a - base) / n.bytes ∈ ks then cellByteAt order (a - (a - base) % n.bytes) n v a
      else m.read a := by
  induction ks generalizing m with
  | nil => simp [writeCells]
  | cons k ks ih =>
    rw [writeCells_cons, ih, memWrite_read]
    by_cases hcell : base + n.bytes * k ≤ a ∧ a < base + n.bytes * k + n.bytes
    · have ha : base ≤ a := by omega
      have hk := (mem_cell_iff ha).mp hcell
      have haddr : a - (a - base) % n.bytes = base + n.bytes * k := by
        have := Nat.mod_add_div (a - base) n.bytes
        rw [hk] at this
        omega
      obtain ⟨b, hb⟩ := Option.isSome_iff_exists.mp (cellByteAt_isSome (order := order) v hcell.1 hcell.2)
      simp [ha, hk, haddr, hb]
    · have hk : base ≤ a → (a - base) / n.bytes ≠ k := fun ha e => hcell ((mem_cell_iff ha).mpr e)
      rw [cellByteAt_eq_none (addr := base + n.bytes * k) (by omega), Option.none_or]
      exact if_congr (by rw [List.mem_cons]; grind) rfl rfl

/-- Writing every cell of a region, in any order and some of them more than once, is filling it. -/
theorem writeCells_eq_memFill {m : Memory} (hm : m.wf) {base count : Nat} {n : CellSize} {v : Half}
    {ks : List Nat} (hks : ∀ k, k ∈ ks ↔ k < count) :
    writeCells order base n v ks m = memFill order m base count n v := by
  refine Memory.ext_of_wf (writeCells_wf hm ..) (memFill_wf hm ..) fun a => ?_
  rw [writeCells_read, memFill_read]
  refine if_congr (and_congr_right fun ha => ?_) rfl rfl
  rw [hks, Nat.div_lt_iff_lt_mul (bytes_pos n), Nat.mul_comm]
  omega

/-- Settles O14: a permutation of the cell numbers names each cell of the region. -/
theorem memFillIsTheWritesInAnyOrder : Obligations.MemFillIsTheWritesInAnyOrder :=
  fun _ _ _ _ _ _ _ hm hperm => writeCells_eq_memFill hm fun _ => hperm.mem_iff.trans List.mem_range

/-! ## Reading a filled region -/

theorem read_memFill_cell (m : Memory) (base : Nat) {count : Nat} (n : CellSize) (v : Half) {k j : Nat}
    (hk : k < count) (hj : j < n.bytes) :
    (memFill order m base count n v).read (base + n.bytes * k + j) =
      cellByteAt order (base + n.bytes * k) n v (base + n.bytes * k + j) := by
  have hend : n.bytes * (k + 1) ≤ n.bytes * count := Nat.mul_le_mul_left _ hk
  rw [Nat.mul_add_one] at hend
  have hoffset : (base + n.bytes * k + j - base) % n.bytes = j := by
    rw [show base + n.bytes * k + j - base = j + n.bytes * k by omega, Nat.add_mul_mod_self_left,
      Nat.mod_eq_of_lt hj]
  rw [memFill_read, if_pos (by omega), hoffset, Nat.add_sub_cancel]

theorem memRead_memFill_two (m : Memory) (base : Nat) {count : Nat} (v : Half) {k : Nat} (hk : k < count) :
    memRead order (memFill order m base count .two v) (base + CellSize.two.bytes * k) .two = some v := by
  have first := read_memFill_cell (order := order) m base .two v hk (j := 0) (by decide)
  have second := read_memFill_cell (order := order) m base .two v hk (j := 1) (by decide)
  rw [cellByteAt_two] at first second
  rw [memRead_two_eq_some]
  exact ⟨by simpa using first, by simpa using second⟩

theorem read_memFill_one (m : Memory) (base : Nat) {count : Nat} (v : Half) {k : Nat} (hk : k < count) :
    (memFill order m base count .one v).read (base + CellSize.one.bytes * k) = some (lowByte v) := by
  have h := read_memFill_cell (order := order) m base .one v hk (j := 0) (by decide)
  rw [cellByteAt_one] at h
  simpa using h

theorem memRead_two_of_bytes {m : Memory} {a : Nat} {first second : Byte} (h₁ : m.read a = some first)
    (h₂ : m.read (a + 1) = some second) : memRead order m a .two = some (joinBytes order first second) := by
  simp only [memRead, h₁, h₂]

end Sys2Proof.Machine
end

section
/-! Proofs about the bitmap surfaces (41_full_direct.md, 42_full_palette.md, 43_reduced_direct.md): what a
`DRAW`, a `CLEAR` and a sequence of draws leave in the storage. -/

namespace Sys2Proof.Machine

/-! ## The bitmap commands as the operations they are -/

section

variable {s : State} {x y : Coord}

theorem exec_drawFD (x y : Coord) (r g b : Channel) (s : State) :
    exec (.drawFD x y r g b) s =
      drawBitmap s.cfg.baseFD s.cfg.wFull s.cfg.hFull .two x y (pack15 s.cfg r g b) s := rfl

theorem exec_drawFP_held (held : s.holdsPselFP = true) (x y : Coord) (idx : Index) :
    exec (.drawFP x y idx) s =
      drawBitmap (s.cfg.baseFP s.pselFP) s.cfg.wFull s.cfg.hFull .one x y (cellOfByte idx) s := by
  rw [exec, execDrawFP, withPageFP_held held]; rfl

theorem exec_drawRD_held (held : s.holdsPselRD = true) (x y : Coord) (r g b : Channel) :
    exec (.drawRD x y r g b) s =
      drawBitmap (s.cfg.baseRD s.pselRD) s.cfg.wRed s.cfg.hRed .two x y (pack15 s.cfg r g b) s := by
  rw [exec, execDrawRD, withPageRD_held held]

theorem exec_clearFD (r g b : Channel) (s : State) :
    exec (.clearFD r g b) s =
      clearBitmap s.cfg.baseFD s.cfg.wFull s.cfg.hFull .two (pack15 s.cfg r g b) s := rfl

theorem exec_clearFP_held (held : s.holdsPselFP = true) (idx : Index) :
    exec (.clearFP idx) s =
      clearBitmap (s.cfg.baseFP s.pselFP) s.cfg.wFull s.cfg.hFull .one (cellOfByte idx) s := by
  rw [exec, execClearFP, withPageFP_held held]; rfl

theorem exec_clearRD_held (held : s.holdsPselRD = true) (r g b : Channel) :
    exec (.clearRD r g b) s =
      clearBitmap (s.cfg.baseRD s.pselRD) s.cfg.wRed s.cfg.hRed .two (pack15 s.cfg r g b) s := by
  rw [exec, execClearRD, withPageRD_held held]

theorem exec_drawFD_in (hb : InBounds s.cfg.wFull s.cfg.hFull x y) (r g b : Channel) :
    exec (.drawFD x y r g b) s =
      .next (s.setMem (memWrite s.cfg.byteOrder s.mem (addrFD s.cfg x y) .two (pack15 s.cfg r g b))) :=
  drawBitmap_in hb

theorem exec_drawFP_in (held : s.holdsPselFP = true) (hb : InBounds s.cfg.wFull s.cfg.hFull x y)
    (idx : Index) :
    exec (.drawFP x y idx) s =
      .next (s.setMem (memWrite s.cfg.byteOrder s.mem (addrFP s.cfg s.pselFP x y) .one (cellOfByte idx))) :=
  (exec_drawFP_held held x y idx).trans (drawBitmap_in hb)

theorem exec_drawRD_in (held : s.holdsPselRD = true) (hb : InBounds s.cfg.wRed s.cfg.hRed x y)
    (r g b : Channel) :
    exec (.drawRD x y r g b) s =
      .next (s.setMem
        (memWrite s.cfg.byteOrder s.mem (addrRD s.cfg s.pselRD x y) .two (pack15 s.cfg r g b))) :=
  (exec_drawRD_held held x y r g b).trans (drawBitmap_in hb)

end

/-- A one-byte cell address without the factor 1. -/
theorem addrFP_eq (cfg : Config) (p : Page) (x y : Coord) :
    addrFP cfg p x y = cfg.baseFP p + (x.toInt.toNat + cfg.wFull * y.toInt.toNat) := by
  simp only [addrFP, cellAddr, CellSize.bytes, cellIndex, coordNat, Nat.one_mul]

/-- Settles O15: past the value test a bitmap draw is the bounds test and one cell write. -/
theorem bitmapDrawRules : Obligations.BitmapDrawRules := by
  refine ⟨fun s x y r g b => ⟨fun hb => ?_, fun hb => ?_⟩,
    fun s x y idx => ⟨fun unheld => ?_, fun held hb => ?_, fun held hb => ?_⟩,
    fun s x y r g b => ⟨fun unheld => ?_, fun held hb => ?_, fun held hb => ?_⟩⟩
  · exact exec_drawFD_in hb r g b
  · exact exec_drawFD_out hb r g b
  · exact exec_drawFP_unheld unheld x y idx
  · rw [exec_drawFP_in held hb, addrFP_eq]; rfl
  · exact exec_drawFP_out held hb idx
  · exact exec_drawRD_unheld unheld x y r g b
  · exact exec_drawRD_in held hb r g b
  · exact exec_drawRD_out held hb r g b

/-! ## What a `DRAW` and a `CLEAR` leave (R125, R146, R166) -/

section

variable {order : ByteOrder} {m : Memory} {base w h a : Nat} {v : Half}

theorem read_memWrite_two_other {addr : Nat} (hfirst : a ≠ addr) (hsecond : a ≠ addr + 1) :
    (memWrite order m addr .two v).read a = m.read a :=
  memWrite_read_outside (by simp only [CellSize.bytes]; omega)

theorem read_memWrite_one_same (addr : Nat) (b : Byte) :
    (memWrite order m addr .one (cellOfByte b)).read addr = some b := by
  simp [memWrite_read, cellByteAt_one]

theorem read_memWrite_one_other {addr : Nat} (hne : a ≠ addr) :
    (memWrite order m addr .one v).read a = m.read a :=
  memWrite_read_outside (by simp only [CellSize.bytes]; omega)

theorem memFill_read_outside_region {n : CellSize} (ha : ¬ InRegion base w h n a) :
    (memFill order m base (w * h) n v).read a = m.read a :=
  memFill_read_outside (by rwa [Nat.mul_comm n.bytes])

/-- Every in-bounds 16-bit cell of a filled region reads as the value. -/
theorem memRead_memFill_cell {x y : Coord} (hb : InBounds w h x y) :
    memRead order (memFill order m base (w * h) .two v) (cellAddr base w .two x y) .two = some v :=
  memRead_memFill_two m base v (cellIndex_lt hb)

theorem read_memFill_byte {b : Byte} {x y : Coord} (hb : InBounds w h x y) :
    (memFill order m base (w * h) .one (cellOfByte b)).read (cellAddr base w .one x y) = some b :=
  (read_memFill_one m base _ (cellIndex_lt hb)).trans (congrArg some (lowByte_cellOfByte b))

end

/-- Settles O20: an in-bounds draw is one cell write at `ADDR_FD`, a clear the fill of the region. -/
theorem fullDirectProperties : Obligations.FullDirectProperties := by
  refine fun s r g b => ⟨fun x y hb => ?draw, fun x y hb => ?out, ?clear, ?size⟩
  case draw =>
    exact ⟨_, exec_drawFD_in hb r g b, memRead_memWrite_two _ _ _, fun a => read_memWrite_two_other⟩
  case out => exact exec_drawFD_out hb r g b
  case clear =>
    exact ⟨_, exec_clearFD r g b s, fun x y hb => memRead_memFill_cell hb,
      fun a ha => memFill_read_outside_region ha⟩
  case size => exact ⟨_, answerSize_eq _ _ s⟩

/-- Settles O21: as for `FD`, with the base address of the selected page; the other page is isolated
(R145). -/
theorem fullPaletteProperties : Obligations.FullPaletteProperties := by
  rintro s idx p held rfl
  refine ⟨fun x y hb => ?draw, fun x y hb => ?out, ?clear, ?size, fun q => ?select⟩
  case draw =>
    have hexec := exec_drawFP_in held hb idx
    exact ⟨_, hexec, read_memWrite_one_same _ idx, fun a => read_memWrite_one_other,
      fun hc q hq a ha => (pagesAreIsolated s _ q a hc).1 hq.symm ha _ (.inl ⟨x, y, idx, rfl⟩) hexec⟩
  case out => exact exec_drawFP_out held hb idx
  case clear =>
    have hexec := exec_clearFP_held held idx
    exact ⟨_, hexec, fun x y hb => read_memFill_byte hb, fun a ha => memFill_read_outside_region ha,
      fun hc q hq a ha => (pagesAreIsolated s _ q a hc).1 hq.symm ha _ (.inr ⟨idx, rfl⟩) hexec⟩
  case size => exact ⟨_, answerSize_eq _ _ s⟩
  case select => exact ⟨true, exec_selectFP q s⟩

/-- Settles O22: as for `FD`, with the base address of the selected page; the other page is isolated
(R165). -/
theorem reducedDirectProperties : Obligations.ReducedDirectProperties := by
  rintro s r g b p held rfl
  refine ⟨fun x y hb => ?draw, fun x y hb => ?out, ?clear, ?size, fun q => ?select⟩
  case draw =>
    have hexec := exec_drawRD_in held hb r g b
    exact ⟨_, hexec, memRead_memWrite_two _ _ _, fun a => read_memWrite_two_other,
      fun hc q hq a ha => (pagesAreIsolated s _ q a hc).2 hq.symm ha _ (.inl ⟨x, y, r, g, b, rfl⟩) hexec⟩
  case out => exact exec_drawRD_out held hb r g b
  case clear =>
    have hexec := exec_clearRD_held held r g b
    exact ⟨_, hexec, fun x y hb => memRead_memFill_cell hb, fun a ha => memFill_read_outside_region ha,
      fun hc q hq a ha => (pagesAreIsolated s _ q a hc).2 hq.symm ha _ (.inr ⟨r, g, b, rfl⟩) hexec⟩
  case size => exact ⟨_, answerSize_eq _ _ s⟩
  case select => exact ⟨true, exec_selectRD q s⟩

/-! ## One storage under all surfaces (R52) -/

/-- A byte written over the first byte of a known 16-bit cell. -/
theorem memRead_memWrite_one_first {order : ByteOrder} {m : Memory} {a : Nat} {old : Half} (b : Byte)
    (hold : memRead order m a .two = some old) :
    memRead order (memWrite order m a .one (cellOfByte b)) a .two =
      some (joinBytes order b (secondByte order old)) := by
  obtain ⟨-, hsecond⟩ := memRead_two_eq_some.mp hold
  exact memRead_two_of_bytes (read_memWrite_one_same a b)
    ((read_memWrite_one_other (by omega)).trans hsecond)

/-- A byte written over the second byte of a known 16-bit cell. -/
theorem memRead_memWrite_one_second {order : ByteOrder} {m : Memory} {a : Nat} {old : Half} (b : Byte)
    (hold : memRead order m a .two = some old) :
    memRead order (memWrite order m (a + 1) .one (cellOfByte b)) a .two =
      some (joinBytes order (firstByte order old) b) := by
  obtain ⟨hfirst, -⟩ := memRead_two_eq_some.mp hold
  exact memRead_two_of_bytes ((read_memWrite_one_other (by omega)).trans hfirst)
    (read_memWrite_one_same (a + 1) b)

/-- Settles O46: `DRAW.FP` writes one byte; the other byte of the cell stays, and the byte order says which
half of the cell each is. -/
theorem surfacesShareOneStorage : Obligations.SurfacesShareOneStorage := by
  intro s x y idx held hb
  refine ⟨_, exec_drawFP_in held hb idx, fun x' y' a old _ hold => ⟨fun e => ?_, fun e => ?_⟩⟩
  · rw [e, memRead_memWrite_one_first idx hold]
    cases s.cfg.byteOrder <;> rfl
  · rw [e, memRead_memWrite_one_second idx hold]
    cases s.cfg.byteOrder <;> rfl

end Sys2Proof.Machine
end

section
/-! Proofs about sequences of bitmap draws (41_full_direct.md section 3; the corner cases of `CLEAR` in 41
R122, 42 R143, 43 R163): the last write to a coordinate wins, and drawing every coordinate is clearing. -/

namespace Sys2Proof.Machine

theorem execSeq_append {is : List Instr} {s t : State} (h : execSeq is s = .next t) (js : List Instr) :
    execSeq (is ++ js) s = execSeq js t := by
  induction is generalizing s with
  | nil =>
    obtain rfl : s = t := by simpa [execSeq] using h
    rfl
  | cons i is ih =>
    cases hi : exec i s with
    | next u => rw [execSeq_cons_next is hi] at h; rw [List.cons_append, execSeq_cons_next _ hi, ih h]
    | fault f => simp [execSeq, hi] at h
    | refused why => simp [execSeq, hi] at h

/-! ## A `DRAWSEQ.FD` (R124) -/

theorem lastPixelAt_concat (ps : List DirectPixel) (p : DirectPixel) (x y : Coord) :
    lastPixelAt (ps ++ [p]) x y = if p.x = x ∧ p.y = y then some p else lastPixelAt ps x y := by
  by_cases h : p.x = x ∧ p.y = y
  · simp [lastPixelAt, h]
  · simp only [lastPixelAt, List.reverse_append, List.reverse_singleton, List.singleton_append]
    rw [List.find?_cons_of_neg (by simpa using h), if_neg h]

theorem memWrite_read_outside_cell {order : ByteOrder} {m : Memory} {addr : Nat} {n : CellSize} {v : Half}
    {a : Nat} (h : ¬ InCell addr n a) : (memWrite order m addr n v).read a = m.read a :=
  memWrite_read_outside (by simp only [InCell] at h; omega)

/-- A cell that does not overlap the one written reads as before. -/
theorem memRead_memWrite_apart {order : ByteOrder} {m : Memory} {addr addr' : Nat} {v : Half}
    (h : addr + 2 ≤ addr' ∨ addr' + 2 ≤ addr) :
    memRead order (memWrite order m addr .two v) addr' .two = memRead order m addr' .two := by
  simp only [memRead]
  rw [read_memWrite_two_other (by omega) (by omega), read_memWrite_two_other (by omega) (by omega)]

/-- The storage after a `DRAWSEQ.FD`: the cells of the last pairs, and outside the region what was there. -/
structure DrawnFD (s : State) (ps : List DirectPixel) (m : Memory) : Prop where
  cells : ∀ x y, InBounds s.cfg.wFull s.cfg.hFull x y →
    memRead s.cfg.byteOrder m (addrFD s.cfg x y) .two =
      match lastPixelAt ps x y with
      | some p => some (pack15 s.cfg p.r p.g p.b)
      | none => memRead s.cfg.byteOrder s.mem (addrFD s.cfg x y) .two
  outside : ∀ a, ¬ InRegionFD s.cfg a → m.read a = s.mem.read a

/-- One more pair in bounds: its own cell is the last write, every other cell lies apart from it. -/
theorem DrawnFD.concat_in {s : State} {ps : List DirectPixel} {m : Memory} (h : DrawnFD s ps m)
    {p : DirectPixel} (hp : InBounds s.cfg.wFull s.cfg.hFull p.x p.y) :
    DrawnFD s (ps ++ [p])
      (memWrite s.cfg.byteOrder m (addrFD s.cfg p.x p.y) .two (pack15 s.cfg p.r p.g p.b)) := by
  refine ⟨fun x y hb => ?_, fun a ha => ?_⟩
  · rw [lastPixelAt_concat]
    by_cases hsame : p.x = x ∧ p.y = y
    · rw [if_pos hsame]
      obtain ⟨rfl, rfl⟩ := hsame
      exact memRead_memWrite_two _ _ _
    · rw [if_neg hsame, memRead_memWrite_apart (cellAddr_apart hp hb hsame)]
      exact h.cells x y hb
  · exact (memWrite_read_outside_cell fun hcell => ha (inCell_in_region hp hcell)).trans (h.outside a ha)

/-- One more pair out of bounds is no pair on any in-bounds coordinate. -/
theorem DrawnFD.concat_out {s : State} {ps : List DirectPixel} {m : Memory} (h : DrawnFD s ps m)
    {p : DirectPixel} (hp : ¬ InBounds s.cfg.wFull s.cfg.hFull p.x p.y) : DrawnFD s (ps ++ [p]) m := by
  refine ⟨fun x y hb => ?_, h.outside⟩
  have hother : ¬ (p.x = x ∧ p.y = y) := fun ⟨hx, hy⟩ => hp (hx ▸ hy ▸ hb)
  rw [lastPixelAt_concat, if_neg hother]
  exact h.cells x y hb

theorem execSeq_drawSeqFD (s : State) (ps : List DirectPixel) :
    ∃ m, execSeq (drawSeqFD ps) s = .next (s.setMem m) ∧ DrawnFD s ps m := by
  induction ps using List.reverseRecOn with
  | nil => exact ⟨s.mem, rfl, fun _ _ _ => rfl, fun _ _ => rfl⟩
  | append_singleton ps p ih =>
    obtain ⟨m, hseq, drawn⟩ := ih
    have hsplit : execSeq (drawSeqFD (ps ++ [p])) s = exec (.drawFD p.x p.y p.r p.g p.b) (s.setMem m) := by
      rw [drawSeqFD, List.map_append, ← drawSeqFD, execSeq_append hseq]
      exact execSeq_singleton _ _
    by_cases hp : InBounds s.cfg.wFull s.cfg.hFull p.x p.y
    · exact ⟨_, hsplit.trans (exec_drawFD_in (s := s.setMem m) hp ..), drawn.concat_in hp⟩
    · exact ⟨m, hsplit.trans (exec_drawFD_out (s := s.setMem m) hp ..), drawn.concat_out hp⟩

theorem execSeq_drawSeqFD_filter {cfg : Config} (ps : List DirectPixel) {s : State} (hcfg : s.cfg = cfg) :
    execSeq (drawSeqFD ps) s =
      execSeq (drawSeqFD (ps.filter fun p => decide (InBounds cfg.wFull cfg.hFull p.x p.y))) s := by
  subst hcfg
  induction ps generalizing s with
  | nil => rfl
  | cons p ps ih =>
    by_cases hp : InBounds s.cfg.wFull s.cfg.hFull p.x p.y
    · have hdraw := exec_drawFD_in hp p.r p.g p.b
      rw [List.filter_cons_of_pos (by simpa using hp), drawSeqFD, drawSeqFD, List.map_cons, List.map_cons,
        execSeq_cons_next _ hdraw, execSeq_cons_next _ hdraw]
      exact ih
    · rw [List.filter_cons_of_neg (by simpa using hp), drawSeqFD, List.map_cons,
        execSeq_cons_next _ (exec_drawFD_out hp p.r p.g p.b)]
      exact ih

/-- Settles O43: by induction over the sequence, its last pair first; a pair out of bounds is a step that
changes nothing. -/
theorem drawSequenceLastWriteWins : Obligations.DrawSequenceLastWriteWins := by
  intro s ps
  obtain ⟨m, hseq, drawn⟩ := execSeq_drawSeqFD s ps
  exact ⟨⟨m, hseq, drawn.cells, drawn.outside⟩, execSeq_drawSeqFD_filter ps rfl⟩

/-! ## Drawing every coordinate with one colour -/

/-- The numbers of the cells that draws on a list of coordinates write. -/
def cellNumbers (w h : Nat) (coords : List (Coord × Coord)) : List Nat :=
  (coords.filter fun c => decide (InBounds w h c.1 c.2)).map fun c => cellIndex w c.1 c.2

theorem cellNumbers_cons_in {w h : Nat} {x y : Coord} (hb : InBounds w h x y) (coords : List (Coord × Coord)) :
    cellNumbers w h ((x, y) :: coords) = cellIndex w x y :: cellNumbers w h coords := by
  rw [cellNumbers, List.filter_cons_of_pos (by simpa using hb), List.map_cons, cellNumbers]

theorem cellNumbers_cons_out {w h : Nat} {x y : Coord} (hb : ¬ InBounds w h x y)
    (coords : List (Coord × Coord)) : cellNumbers w h ((x, y) :: coords) = cellNumbers w h coords := by
  rw [cellNumbers, List.filter_cons_of_neg (by simpa using hb), cellNumbers]

theorem coord_toInt {k : Nat} (hk : k < 2 ^ 31) : (BitVec.ofNat 32 k).toInt = k := by
  rw [BitVec.toInt_eq_toNat_of_lt] <;> rw [BitVec.toNat_ofNat] <;> omega

/-- R43: each cell number below `W*H` is that of the in-bounds coordinate that remainder and quotient by `W`
give, where `W` and `H` are coordinate bounds. -/
theorem coord_of_cellNumber {w h k : Nat} (hw : w < 2 ^ 31) (hh : h < 2 ^ 31) (hk : k < w * h) :
    InBounds w h (BitVec.ofNat 32 (k % w)) (BitVec.ofNat 32 (k / w)) ∧
      cellIndex w (BitVec.ofNat 32 (k % w)) (BitVec.ofNat 32 (k / w)) = k := by
  have hwpos : 0 < w := Nat.pos_of_mul_pos_right (Nat.zero_lt_of_lt hk)
  have hx : k % w < w := Nat.mod_lt k hwpos
  have hy : k / w < h := Nat.div_lt_of_lt_mul hk
  have hxi := coord_toInt (k := k % w) (by omega)
  have hyi := coord_toInt (k := k / w) (by omega)
  refine ⟨?_, ?_⟩
  · rw [InBounds, hxi, hyi]
    exact ⟨Int.natCast_nonneg _, Int.ofNat_lt.mpr hx, Int.natCast_nonneg _, Int.ofNat_lt.mpr hy⟩
  · simp only [cellIndex, coordNat, hxi, hyi, Int.toNat_natCast]
    exact Nat.mod_add_div k w

theorem mem_cellNumbers_iff {w h : Nat} (hw : w < 2 ^ 31) (hh : h < 2 ^ 31) {coords : List (Coord × Coord)}
    (cover : ∀ x y, InBounds w h x y → (x, y) ∈ coords) (k : Nat) :
    k ∈ cellNumbers w h coords ↔ k < w * h := by
  simp only [cellNumbers, List.mem_map, List.mem_filter, decide_eq_true_eq]
  constructor
  · rintro ⟨c, ⟨-, hb⟩, rfl⟩
    exact cellIndex_lt hb
  · intro hk
    obtain ⟨hb, hindex⟩ := coord_of_cellNumber hw hh hk
    exact ⟨_, ⟨cover _ _ hb, hb⟩, hindex⟩

section

variable {α : Type} {f : α → Instr} {pos : α → Coord × Coord} {base w h : Nat} {n : CellSize} {v : Half}
  {ps : List α} {s : State}

/-- Commands that are draws with one value, whatever the storage, are the writes of their cells. -/
theorem execSeq_draws (hdraw : ∀ p ∈ ps, ∀ m,
      exec (f p) (s.setMem m) = drawBitmap base w h n (pos p).1 (pos p).2 v (s.setMem m)) (m : Memory) :
    execSeq (ps.map f) (s.setMem m) =
      .next (s.setMem (writeCells s.cfg.byteOrder base n v (cellNumbers w h (ps.map pos)) m)) := by
  induction ps generalizing m with
  | nil => rfl
  | cons p ps ih =>
    have hp := hdraw p List.mem_cons_self m
    have ih := ih fun q hq => hdraw q (List.mem_cons_of_mem p hq)
    rw [List.map_cons, List.map_cons]
    by_cases hb : InBounds w h (pos p).1 (pos p).2
    · rw [drawBitmap_in hb] at hp
      rw [execSeq_cons_next _ hp, cellNumbers_cons_in hb]
      exact ih _
    · rw [drawBitmap_out hb] at hp
      rw [execSeq_cons_next _ hp, cellNumbers_cons_out hb]
      exact ih m

/-- Draws with one value on every in-bounds coordinate, in any order, are the clear with that value. -/
theorem execSeq_covering_draws (hw : w < 2 ^ 31) (hh : h < 2 ^ 31) (hm : s.mem.wf)
    (cover : ∀ x y, InBounds w h x y → (x, y) ∈ ps.map pos)
    (hdraw : ∀ p ∈ ps, ∀ m,
      exec (f p) (s.setMem m) = drawBitmap base w h n (pos p).1 (pos p).2 v (s.setMem m)) :
    execSeq (ps.map f) s = clearBitmap base w h n v s := by
  have hseq := execSeq_draws hdraw s.mem
  rw [writeCells_eq_memFill hm (mem_cellNumbers_iff hw hh cover)] at hseq
  exact hseq

end

/-- A sequence with a pair on every in-bounds coordinate, as the list of its coordinates. -/
theorem mem_map_of_cover {α : Type} {ps : List α} {px py : α → Coord} {w h : Nat}
    (cover : ∀ x y, InBounds w h x y → ∃ p ∈ ps, px p = x ∧ py p = y) (x y : Coord) (hb : InBounds w h x y) :
    (x, y) ∈ ps.map fun p => (px p, py p) := by
  obtain ⟨p, hp, rfl, rfl⟩ := cover x y hb
  exact List.mem_map_of_mem hp

/-- R6 (b): the dimensions of the surfaces are below `2^16`. -/
theorem dimensions_lt {cfg : Config} (hfit : cfg.DimensionsFit) :
    (cfg.wFull < 2 ^ 31 ∧ cfg.hFull < 2 ^ 31) ∧ cfg.wRed < 2 ^ 31 ∧ cfg.hRed < 2 ^ 31 := by
  obtain ⟨⟨-, hwFull⟩, ⟨-, hhFull⟩, ⟨-, hwRed⟩, ⟨-, hhRed⟩⟩ := hfit
  omega

/-- Settles O44: either way every cell of the region is written with one value, and two canonical storages
that read alike are the same. -/
theorem bitmapClearEqualsDrawingEverything : Obligations.BitmapClearEqualsDrawingEverything := by
  intro s hc hm
  obtain ⟨-, hfit, -⟩ := hc
  obtain ⟨⟨hwFull, hhFull⟩, hwRed, hhRed⟩ := dimensions_lt hfit
  refine ⟨fun r g b ps hcolour cover => ?fd, fun idx ps held hindex cover => ?fp,
    fun r g b ps held hcolour cover => ?rd⟩
  case fd =>
    rw [exec_clearFD]
    refine execSeq_covering_draws hwFull hhFull hm (mem_map_of_cover cover) fun p hp m => ?_
    obtain ⟨rfl, rfl, rfl⟩ := hcolour p hp
    exact exec_drawFD ..
  case fp =>
    rw [exec_clearFP_held held]
    refine execSeq_covering_draws hwFull hhFull hm (mem_map_of_cover cover) fun p hp m => ?_
    obtain rfl := hindex p hp
    exact exec_drawFP_held (s := s.setMem m) held ..
  case rd =>
    rw [exec_clearRD_held held]
    refine execSeq_covering_draws hwRed hhRed hm (mem_map_of_cover cover) fun p hp m => ?_
    obtain ⟨rfl, rfl, rfl⟩ := hcolour p hp
    exact exec_drawRD_held (s := s.setMem m) held ..

end Sys2Proof.Machine
end

section
/-! Proofs about the tile buffers (44_tile4.md, 45_tile8.md). Both are vectors of words with `c` slots of `b`
bits a word, `b * c = 32`; what a draw and a fill do to a slot is proved once for both. -/

namespace Sys2Proof.Machine

/-! ## Slots of a packed buffer -/

/-- The `b` low bits of a word. -/
def slotMask (b : Nat) : Word := BitVec.ofNat 32 (2 ^ b - 1)

/-- The value of a slot (R180, R200). -/
def getSlot (b c : Nat) {n : Nat} (t : Vector Word n) (i : Nat) : Word :=
  (t.getD (i / c) 0 >>> (i % c * b)) &&& slotMask b

/-- A slot replaced (R182, R202). -/
def setSlot (b c : Nat) {n : Nat} (t : Vector Word n) (i : Nat) (v : Word) : Vector Word n :=
  t.setIfInBounds (i / c) (replaceField (t.getD (i / c) 0) (slotMask b) v (i % c * b))

theorem get4_eq_getSlot (t : Vector Word t4Words) (i : Nat) : get4 t i = getSlot 4 8 t i := rfl

theorem get8_eq_getSlot (t : Vector Word t8Words) (i : Nat) : get8 t i = getSlot 8 4 t i := rfl

theorem slotMask_getLsbD (b : Nat) {q : Nat} (hq : q < 32) : (slotMask b).getLsbD q = decide (q < b) := by
  rw [slotMask, BitVec.getLsbD_ofNat, Nat.testBit_two_pow_sub_one]
  simp [hq]

/-- A value of a slot's width stays when cut to that width. -/
theorem setWidth_and_slotMask {b : Nat} (x : BitVec b) : x.setWidth 32 &&& slotMask b = x.setWidth 32 := by
  apply BitVec.eq_of_getLsbD_eq
  intro q hq
  rw [BitVec.getLsbD_and, slotMask_getLsbD b hq, BitVec.getLsbD_setWidth]
  by_cases h : q < b
  · simp [h]
  · rw [BitVec.getLsbD_of_ge x q (by omega)]; simp

/-- The shifted and masked word is the field extracted from it. -/
theorem shift_and_slotMask (w : Word) (off b : Nat) :
    (w >>> off) &&& slotMask b = (w.extractLsb' off b).setWidth 32 := by
  apply BitVec.eq_of_getLsbD_eq
  intro q hq
  rw [BitVec.getLsbD_and, slotMask_getLsbD b hq, BitVec.getLsbD_setWidth, BitVec.getLsbD_extractLsb',
    BitVec.getLsbD_ushiftRight]
  simp [hq, Bool.and_comm]

theorem getSlot_getLsbD {b c n : Nat} (t : Vector Word n) (i : Nat) {q : Nat} (hq : q < 32) :
    (getSlot b c t i).getLsbD q = ((t.getD (i / c) 0).getLsbD (i % c * b + q) && decide (q < b)) := by
  rw [getSlot, BitVec.getLsbD_and, slotMask_getLsbD b hq, BitVec.getLsbD_ushiftRight]

theorem replaceField_getLsbD (old mask field : Word) (off : Nat) {j : Nat} (hj : j < 32) :
    (replaceField old mask field off).getLsbD j =
      ((old.getLsbD j && !(decide (off ≤ j) && mask.getLsbD (j - off))) ||
        (decide (off ≤ j) && field.getLsbD (j - off))) := by
  rw [BitVec.getLsbD_eq_getElem hj, replaceField_getElem hj, BitVec.getLsbD_eq_getElem hj]

/-- Bit `q` of field `j` lies in field `i` only if the fields are the same. -/
theorem field_bit_cases {b i j q : Nat} (hq : q < b) :
    i = j ∨ j * b + q < i * b ∨ i * b + b ≤ j * b + q := by
  rcases Nat.lt_trichotomy i j with h | h | h
  · have := Nat.mul_le_mul_right b (Nat.succ_le_of_lt h)
    rw [Nat.succ_mul] at this
    omega
  · exact .inl h
  · have := Nat.mul_le_mul_right b (Nat.succ_le_of_lt h)
    rw [Nat.succ_mul] at this
    omega

/-- A field of a word after a field is replaced: the value in that field, the old value in every other. -/
theorem field_replaceField {b : Nat} (old : Word) {v : Word} (hv : v &&& slotMask b = v) (i : Nat) {j : Nat}
    (hj : j * b + b ≤ 32) :
    (replaceField old (slotMask b) v (i * b) >>> (j * b)) &&& slotMask b =
      if j = i then v else (old >>> (j * b)) &&& slotMask b := by
  have hvbit : ∀ q < 32, v.getLsbD q = (v.getLsbD q && decide (q < b)) := fun q hq => by
    rw [← slotMask_getLsbD b hq, ← BitVec.getLsbD_and, hv]
  apply BitVec.eq_of_getLsbD_eq
  intro q hq
  rw [BitVec.getLsbD_and, BitVec.getLsbD_ushiftRight, slotMask_getLsbD b hq]
  by_cases hqb : q < b
  · rw [replaceField_getLsbD _ _ _ _ (by omega)]
    rcases field_bit_cases (i := i) (j := j) hqb with rfl | hbefore | hafter
    · simp [hqb, slotMask_getLsbD b hq]
    · have hne : j ≠ i := by rintro rfl; omega
      simp [hne, hqb, show ¬ i * b ≤ j * b + q by omega, slotMask_getLsbD b hq]
    · have hne : j ≠ i := by rintro rfl; omega
      have hout : ¬ j * b + q - i * b < b := by omega
      rw [hvbit _ (by omega), slotMask_getLsbD b (by omega)]
      simp [hne, hqb, hout, slotMask_getLsbD b hq]
  · split
    · rw [hvbit q hq]; simp [hqb]
    · simp [hqb, slotMask_getLsbD b hq]

theorem getD_eq_getElem {n : Nat} (t : Vector Word n) {k : Nat} (hk : k < n) : t.getD k 0 = t[k] := by
  simp [Vector.getD, hk]

theorem getD_setIfInBounds {n : Nat} (t : Vector Word n) {k : Nat} (hk : k < n) (w : Word) (k' : Nat) :
    (t.setIfInBounds k w).getD k' 0 = if k' = k then w else t.getD k' 0 := by
  have hgetD : ∀ u : Vector Word n, u.getD k' 0 = u[k']?.getD 0 := fun u => by simp [Vector.getD]
  rw [hgetD, hgetD, Vector.getElem?_setIfInBounds]
  by_cases h : k' = k
  · simp [h, hk]
  · simp [h, Ne.symm h]

section

variable {b c n : Nat} (hbc : b * c = 32)
include hbc

theorem slots_pos : 0 < c := by
  rcases Nat.eq_zero_or_pos c with rfl | h
  · simp at hbc
  · exact h

/-- The field of a slot ends inside the word. -/
theorem slot_field_end (j : Nat) : j % c * b + b ≤ 32 := by
  have := Nat.mul_le_mul_right b (Nat.mod_lt j (slots_pos hbc))
  rwa [Nat.succ_mul, Nat.mul_comm c b, hbc] at this

/-- A slot after a slot is replaced: the value in that slot, the old value in every other. -/
theorem getSlot_setSlot (t : Vector Word n) {i : Nat} (hi : i < c * n) {v : Word}
    (hv : v &&& slotMask b = v) (j : Nat) :
    getSlot b c (setSlot b c t i v) j = if j = i then v else getSlot b c t j := by
  rw [getSlot, setSlot, getD_setIfInBounds t (Nat.div_lt_of_lt_mul hi)]
  by_cases hword : j / c = i / c
  · have hij : j % c = i % c ↔ j = i := by
      rw [← Nat.div_add_mod j c, ← Nat.div_add_mod i c, hword]; simp
    rw [if_pos hword, field_replaceField _ hv _ (slot_field_end hbc j), ← hword, getSlot]
    exact if_congr hij rfl rfl
  · rw [if_neg hword, if_neg (fun e => hword (by rw [e])), getSlot]

/-- A buffer is determined by its slots. -/
theorem eq_of_getSlot_eq {t t' : Vector Word n} (h : ∀ i < c * n, getSlot b c t i = getSlot b c t' i) :
    t = t' := by
  have hb : 0 < b := slots_pos (b := c) (by rw [Nat.mul_comm, hbc])
  ext1 k hk
  rw [← getD_eq_getElem t hk, ← getD_eq_getElem t' hk]
  apply BitVec.eq_of_getLsbD_eq
  intro j hj
  have hfield : j / b < c := Nat.div_lt_of_lt_mul (hbc ▸ hj)
  have hi : c * k + j / b < c * n := by
    have := Nat.mul_le_mul_left c (Nat.succ_le_of_lt hk)
    rw [Nat.mul_succ] at this
    omega
  have hdiv : (c * k + j / b) / c = k := by
    rw [Nat.mul_add_div (slots_pos hbc), Nat.div_eq_of_lt hfield, Nat.add_zero]
  have hmod : (c * k + j / b) % c = j / b := by rw [Nat.mul_add_mod, Nat.mod_eq_of_lt hfield]
  have hq : j % b < b := Nat.mod_lt j hb
  have hbits := congrArg (·.getLsbD (j % b)) (h _ hi)
  simp only [getSlot_getLsbD _ _ (show j % b < 32 by have := Nat.mod_le j b; omega), hdiv, hmod, hq,
    decide_true, Bool.and_true, Nat.mul_comm (j / b) b, Nat.div_add_mod] at hbits
  exact hbits

/-- Replacing a slot twice is replacing it once. -/
theorem setSlot_setSlot (t : Vector Word n) {i : Nat} (hi : i < c * n) {v v' : Word}
    (hv : v &&& slotMask b = v) (hv' : v' &&& slotMask b = v') :
    setSlot b c (setSlot b c t i v) i v' = setSlot b c t i v' := by
  refine eq_of_getSlot_eq hbc fun j _ => ?_
  rw [getSlot_setSlot hbc _ hi hv', getSlot_setSlot hbc _ hi hv', getSlot_setSlot hbc _ hi hv]
  split <;> rfl

end

/-- A word of the buffer after a slot is replaced. -/
theorem setSlot_getElem {b c n : Nat} (t : Vector Word n) {i : Nat} (v : Word) {k : Nat} (hk : k < n) :
    (setSlot b c t i v)[k] =
      if k = i / c then replaceField t[k] (slotMask b) v (i % c * b) else t[k] := by
  rw [setSlot, Vector.getElem_setIfInBounds]
  by_cases h : k = i / c
  · subst h; rw [if_pos rfl, if_pos rfl, getD_eq_getElem t hk]
  · rw [if_neg h, if_neg (Ne.symm h)]

/-- A slot of a buffer filled with one word. -/
theorem getSlot_replicate {b c n : Nat} (w : Word) {i : Nat} (hi : i < c * n) :
    getSlot b c (Vector.replicate n w) i = (w.extractLsb' (i % c * b) b).setWidth 32 := by
  rw [getSlot, getD_eq_getElem _ (Nat.div_lt_of_lt_mul hi), Vector.getElem_replicate, shift_and_slotMask]

theorem getSlot_replicate_rep4 (v : BitVec 4) {i : Nat} (hi : i < 64) :
    getSlot 4 8 (Vector.replicate t4Words (rep4 v)) i = v.setWidth 32 := by
  rw [getSlot_replicate _ hi, Nat.mul_comm, rep4_nibble v (Nat.mod_lt i (by decide))]

theorem getSlot_replicate_rep8 (v : Index) {i : Nat} (hi : i < 64) :
    getSlot 8 4 (Vector.replicate t8Words (rep8 v)) i = v.setWidth 32 := by
  rw [getSlot_replicate _ hi, Nat.mul_comm, rep8_byte v (Nat.mod_lt i (by decide))]

/-! ## The tile commands as operations on slots -/

/-- `T4` has other contents. -/
def State.withT4 (s : State) (t : Vector Word t4Words) : State := { s with t4 := t }

/-- `T8` has other contents. -/
def State.withT8 (s : State) (t : Vector Word t8Words) : State := { s with t8 := t }

/-- The value that a draw on `T4` leaves in its slot (R182). -/
def slotValue4 (idx : Index) : Word := (trunc4 idx).setWidth 32

/-- The value that a draw on `T8` leaves in its slot (R202). -/
def slotValue8 (idx : Index) : Word := idx.setWidth 32

theorem slotValue4_and_mask (idx : Index) : slotValue4 idx &&& slotMask 4 = slotValue4 idx :=
  setWidth_and_slotMask (trunc4 idx)

theorem slotValue8_and_mask (idx : Index) : slotValue8 idx &&& slotMask 8 = slotValue8 idx :=
  setWidth_and_slotMask idx

/-- Truncated by `TRUNC4` or by a mask (R108). -/
theorem slotValue4_eq (idx : Index) : slotValue4 idx = (idx &&& 0xF).setWidth 32 := by
  rw [slotValue4, ← trunc4_setWidth]
  apply BitVec.eq_of_toNat_eq
  simp only [BitVec.toNat_setWidth_of_le (by decide : 4 ≤ 32), BitVec.toNat_setWidth_of_le (by decide : 8 ≤ 32),
    BitVec.toNat_setWidth_of_le (by decide : 4 ≤ 8)]

section

variable {s : State} {x y : Coord}

theorem exec_drawT4_held (held : s.holdsT4 = true) (x y : Coord) (idx : Index) :
    exec (.drawT4 x y idx) s = drawTile4 x y idx s.t4 s := by
  rw [exec, execDrawT4, withBufferT4_held held]

theorem exec_drawT8_held (held : s.holdsT8 = true) (x y : Coord) (idx : Index) :
    exec (.drawT8 x y idx) s = drawTile8 x y idx s.t8 s := by
  rw [exec, execDrawT8, withBufferT8_held held]

theorem exec_drawT4_in (held : s.holdsT4 = true) (hb : InBounds tileSide tileSide x y) (idx : Index) :
    exec (.drawT4 x y idx) s = .next (s.withT4 (setSlot 4 8 s.t4 (slot x y) (slotValue4 idx))) := by
  rw [exec_drawT4_held held, drawTile4_in hb]; rfl

theorem exec_drawT8_in (held : s.holdsT8 = true) (hb : InBounds tileSide tileSide x y) (idx : Index) :
    exec (.drawT8 x y idx) s = .next (s.withT8 (setSlot 8 4 s.t8 (slot x y) (slotValue8 idx))) := by
  rw [exec_drawT8_held held, drawTile8_in hb]; rfl

theorem exec_newT4 (idx : Index) (s : State) : exec (.newT4 idx) s =
    .next { s with t4 := Vector.replicate t4Words (rep4 (trunc4 idx)), holdsT4 := true } := rfl

theorem exec_newT8 (idx : Index) (s : State) : exec (.newT8 idx) s =
    .next { s with t8 := Vector.replicate t8Words (rep8 idx), holdsT8 := true } := rfl

theorem exec_clearT4 (idx : Index) (s : State) : exec (.clearT4 idx) s = exec (.newT4 idx) s := rfl

theorem exec_clearT8 (idx : Index) (s : State) : exec (.clearT8 idx) s = exec (.newT8 idx) s := rfl

end

/-- R107: the coordinate that remainder and quotient by 8 give is that of the slot. -/
theorem coord_of_slot {i : Nat} (hi : i < 64) :
    InBounds tileSide tileSide (BitVec.ofNat 32 (i % 8)) (BitVec.ofNat 32 (i / 8)) ∧
      slot (BitVec.ofNat 32 (i % 8)) (BitVec.ofNat 32 (i / 8)) = i :=
  coord_of_cellNumber (w := 8) (h := 8) (by decide) (by decide) hi

/-! ## What the tile commands leave (R185, R205) -/

theorem trunc4_of_masked (idx : Index) : trunc4 (idx &&& 0xF) = trunc4 idx := by
  rw [← trunc4_setWidth]
  apply BitVec.eq_of_toNat_eq
  rw [trunc4, BitVec.extractLsb'_toNat, BitVec.toNat_setWidth_of_le (by decide)]
  exact Nat.mod_eq_of_lt (trunc4 idx).isLt

/-- Settles O17: `NEW` and `CLEAR` are one fill, with the index replicated. -/
theorem tileFillRules : Obligations.TileFillRules := by
  refine fun s idx => ⟨?newT4, exec_clearT4 idx s, ?masked, ?newT8, exec_clearT8 idx s⟩
  case newT4 => exact ⟨_, exec_newT4 idx s, fun k hk => Vector.getElem_replicate hk⟩
  case masked => rw [exec_newT4, exec_newT4, trunc4_of_masked]
  case newT8 => exact ⟨_, exec_newT8 idx s, fun k hk => Vector.getElem_replicate hk⟩

/-- Settles O16: a draw replaces one slot, which is one field of the word that the quotient of the slot
names, at the offset that the remainder names. -/
theorem tileDrawRules : Obligations.TileDrawRules := by
  refine ⟨fun s x y idx => ⟨fun unheld => ?_, fun held hb => ?_, fun held hb => ?_⟩,
    fun s x y idx => ⟨fun unheld => ?_, fun held hb => ?_, fun held hb => ?_⟩⟩
  · exact exec_drawT4_unheld unheld x y idx
  · exact exec_drawT4_out held hb idx
  · refine ⟨_, exec_drawT4_in held hb idx, fun k hk => ?_⟩
    have hslot := slot_toInt hb
    obtain ⟨hx, hx8, hy, hy8⟩ := hb
    have hword : k = slot x y / 8 ↔ (k : Int) = y.toInt := by omega
    have hoff : slot x y % 8 * 4 = 4 * x.toInt.toNat := by omega
    rw [setSlot_getElem _ _ hk, hoff, slotValue4_eq]
    exact if_congr hword rfl rfl
  · exact exec_drawT8_unheld unheld x y idx
  · exact exec_drawT8_out held hb idx
  · refine ⟨_, exec_drawT8_in held hb idx, fun k hk => ?_⟩
    have hslot := slot_toInt hb
    obtain ⟨hx, hx8, hy, hy8⟩ := hb
    have hword : k = slot x y / 4 ↔ (k : Int) = 2 * y.toInt + x.toInt / 4 := by omega
    have hoff : slot x y % 4 * 8 = 8 * (x.toInt.toNat % 4) := by omega
    rw [setSlot_getElem _ _ hk, hoff]
    exact if_congr hword rfl rfl

/-- Settles O23: a draw replaces the slot of its coordinate; a fill puts the value in each slot. -/
theorem tileFourProperties : Obligations.TileFourProperties := by
  refine fun s idx => ⟨fun held i hi => ?draw, fun held x y hb => ?out, ?new, ?clear, ?size⟩
  case draw =>
    obtain ⟨hb, hslot⟩ := coord_of_slot hi
    have hread := getSlot_setSlot (c := 8) (n := t4Words) rfl s.t4 hi (slotValue4_and_mask idx)
    refine ⟨_, exec_drawT4_in held hb idx, ?_, fun j hj hne => ?_⟩ <;> rw [hslot, get4_eq_getSlot, hread]
    · rw [if_pos rfl, slotValue4_eq]
    · rw [if_neg hne, get4_eq_getSlot]
  case out => exact exec_drawT4_out held hb idx
  case new => exact ⟨_, exec_newT4 idx s, fun i hi => (getSlot_replicate_rep4 _ hi).trans (slotValue4_eq idx)⟩
  case clear => exact ⟨_, exec_newT4 idx s, fun i hi => (getSlot_replicate_rep4 _ hi).trans (slotValue4_eq idx)⟩
  case size => exact ⟨_, answerSize_eq _ _ s⟩

/-- Settles O24: as for `T4`, with slots of eight bits. -/
theorem tileEightProperties : Obligations.TileEightProperties := by
  refine fun s idx => ⟨fun held i hi => ?draw, fun held x y hb => ?out, ?new, ?clear, ?size⟩
  case draw =>
    obtain ⟨hb, hslot⟩ := coord_of_slot hi
    have hread := getSlot_setSlot (c := 4) (n := t8Words) rfl s.t8 hi (slotValue8_and_mask idx)
    refine ⟨_, exec_drawT8_in held hb idx, ?_, fun j hj hne => ?_⟩ <;> rw [hslot, get8_eq_getSlot, hread]
    · rw [if_pos rfl]; rfl
    · rw [if_neg hne, get8_eq_getSlot]
  case out => exact exec_drawT8_out held hb idx
  case new => exact ⟨_, exec_newT8 idx s, fun i hi => getSlot_replicate_rep8 idx hi⟩
  case clear => exact ⟨_, exec_newT8 idx s, fun i hi => getSlot_replicate_rep8 idx hi⟩
  case size => exact ⟨_, answerSize_eq _ _ s⟩

/-! ## Drawing every coordinate of a tile with one index -/

/-- The slots of a list replaced, one after the other, by one value. -/
def setSlots (b c : Nat) {n : Nat} (v : Word) (is : List Nat) (t : Vector Word n) : Vector Word n :=
  is.foldl (fun t i => setSlot b c t i v) t

section

variable {b c n : Nat} (hbc : b * c = 32) {v : Word} (hv : v &&& slotMask b = v) {is : List Nat}
include hbc hv

theorem getSlot_setSlots (his : ∀ i ∈ is, i < c * n) (t : Vector Word n) (j : Nat) :
    getSlot b c (setSlots b c v is t) j = if j ∈ is then v else getSlot b c t j := by
  induction is generalizing t with
  | nil => simp [setSlots]
  | cons i is ih =>
    obtain ⟨hi, his⟩ := List.forall_mem_cons.mp his
    have hrest := ih his (setSlot b c t i v)
    rw [getSlot_setSlot hbc t hi hv] at hrest
    refine hrest.trans ?_
    by_cases hj : j ∈ is
    · simp [hj]
    · simp [hj]

/-- With every slot replaced, the buffer is the one with the value in each slot. -/
theorem setSlots_eq_of_cover (his : ∀ i, i ∈ is ↔ i < c * n) {t t' : Vector Word n}
    (ht' : ∀ i < c * n, getSlot b c t' i = v) : setSlots b c v is t = t' := by
  refine eq_of_getSlot_eq hbc fun i hi => ?_
  rw [getSlot_setSlots hbc hv (fun j => (his j).mp), if_pos ((his i).mpr hi), ht' i hi]

end

/-- Commands that draw one value on a buffer, wherever it is kept (`put`), replace the slots of their
in-bounds coordinates. -/
theorem execSeq_tile_draws {b c n : Nat} {v : Word} {put : Vector Word n → State} {f : IndexPixel → Instr}
    {ps : List IndexPixel}
    (hin : ∀ p ∈ ps, ∀ t, InBounds tileSide tileSide p.x p.y →
      exec (f p) (put t) = .next (put (setSlot b c t (slot p.x p.y) v)))
    (hout : ∀ p ∈ ps, ∀ t, ¬ InBounds tileSide tileSide p.x p.y → exec (f p) (put t) = .next (put t))
    (t : Vector Word n) :
    execSeq (ps.map f) (put t) =
      .next (put (setSlots b c v (cellNumbers tileSide tileSide (ps.map fun p => (p.x, p.y))) t)) := by
  induction ps generalizing t with
  | nil => rfl
  | cons p ps ih =>
    have ih := ih (fun q hq => hin q (List.mem_cons_of_mem p hq)) fun q hq => hout q (List.mem_cons_of_mem p hq)
    rw [List.map_cons, List.map_cons]
    by_cases hb : InBounds tileSide tileSide p.x p.y
    · rw [execSeq_cons_next _ (hin p List.mem_cons_self t hb), cellNumbers_cons_in hb]
      exact ih _
    · rw [execSeq_cons_next _ (hout p List.mem_cons_self t hb), cellNumbers_cons_out hb]
      exact ih t

theorem mem_tileNumbers_iff {ps : List IndexPixel}
    (cover : ∀ x y, InBounds tileSide tileSide x y → ∃ p ∈ ps, p.x = x ∧ p.y = y) (i : Nat) :
    i ∈ cellNumbers tileSide tileSide (ps.map fun p => (p.x, p.y)) ↔ i < 64 :=
  mem_cellNumbers_iff (by decide) (by decide) (mem_map_of_cover cover) i

/-- Settles O45: either way each of the 64 slots has the value, and a buffer is determined by its slots. -/
theorem tileClearEqualsDrawingEverything : Obligations.TileClearEqualsDrawingEverything := by
  refine fun s idx ps hindex cover => ⟨fun held => ?t4, fun held => ?t8⟩
  case t4 =>
    have hseq := execSeq_tile_draws (b := 4) (c := 8) (v := slotValue4 idx) (put := s.withT4)
      (f := fun p => .drawT4 p.x p.y p.idx) (ps := ps)
      (fun p hp t hb => hindex p hp ▸ exec_drawT4_in (s := s.withT4 t) held hb p.idx)
      (fun p hp t hb => exec_drawT4_out (s := s.withT4 t) held hb p.idx) s.t4
    rw [setSlots_eq_of_cover rfl (slotValue4_and_mask idx) (mem_tileNumbers_iff cover)
      fun i hi => getSlot_replicate_rep4 (trunc4 idx) hi] at hseq
    rw [exec_clearT4, exec_newT4, ← held]
    exact hseq
  case t8 =>
    have hseq := execSeq_tile_draws (b := 8) (c := 4) (v := slotValue8 idx) (put := s.withT8)
      (f := fun p => .drawT8 p.x p.y p.idx) (ps := ps)
      (fun p hp t hb => hindex p hp ▸ exec_drawT8_in (s := s.withT8 t) held hb p.idx)
      (fun p hp t hb => exec_drawT8_out (s := s.withT8 t) held hb p.idx) s.t8
    rw [setSlots_eq_of_cover rfl (slotValue8_and_mask idx) (mem_tileNumbers_iff cover)
      fun i hi => getSlot_replicate_rep8 idx hi] at hseq
    rw [exec_clearT8, exec_newT8, ← held]
    exact hseq

/-! ## A later draw on a coordinate replaces an earlier one (R54 (c)) -/

/-- Two commands one after the other, where the first completes and the second does the same with and
without it. -/
theorem execSeq_pair {i j : Instr} {s t : State} (hi : exec i s = .next t) (hj : exec j t = exec j s) :
    execSeq [i, j] s = exec j s := by
  rw [execSeq_cons_next _ hi, execSeq_singleton, hj]

theorem execSeq_pair_refused {i j : Instr} {s : State} {why : Refusal} (hi : exec i s = .refused why)
    (hj : exec j s = .refused why) : execSeq [i, j] s = exec j s := by
  simp only [execSeq, hi, hj]

theorem drawBitmap_replaces {s : State} (hm : s.mem.wf) (base w h : Nat) (n : CellSize) (x y : Coord)
    (v v' : Half) :
    ∃ m, drawBitmap base w h n x y v s = .next (s.setMem m) ∧
      drawBitmap base w h n x y v' (s.setMem m) = drawBitmap base w h n x y v' s := by
  by_cases hb : InBounds w h x y
  · refine ⟨_, drawBitmap_in hb, ?_⟩
    rw [drawBitmap_in hb, drawBitmap_in hb]
    exact congrArg (fun m => Host.Outcome.next (s.setMem m)) (memWrite_memWrite hm ..)
  · exact ⟨s.mem, drawBitmap_out hb, rfl⟩

theorem exec_drawT4_drawn {s : State} {x y : Coord} (held : s.holdsT4 = true)
    (hb : InBounds tileSide tileSide x y) (idx idx' : Index) :
    exec (.drawT4 x y idx') (s.withT4 (setSlot 4 8 s.t4 (slot x y) (slotValue4 idx))) =
      exec (.drawT4 x y idx') s := by
  have hslot := setSlot_setSlot (c := 8) (n := t4Words) rfl s.t4 (slot_lt hb) (slotValue4_and_mask idx)
    (slotValue4_and_mask idx')
  rw [exec_drawT4_in held hb, ← hslot]
  exact exec_drawT4_in (s := s.withT4 (setSlot 4 8 s.t4 (slot x y) (slotValue4 idx))) held hb idx'

theorem exec_drawT8_drawn {s : State} {x y : Coord} (held : s.holdsT8 = true)
    (hb : InBounds tileSide tileSide x y) (idx idx' : Index) :
    exec (.drawT8 x y idx') (s.withT8 (setSlot 8 4 s.t8 (slot x y) (slotValue8 idx))) =
      exec (.drawT8 x y idx') s := by
  have hslot := setSlot_setSlot (c := 4) (n := t8Words) rfl s.t8 (slot_lt hb) (slotValue8_and_mask idx)
    (slotValue8_and_mask idx')
  rw [exec_drawT8_in held hb, ← hslot]
  exact exec_drawT8_in (s := s.withT8 (setSlot 8 4 s.t8 (slot x y) (slotValue8 idx))) held hb idx'

/-- Settles O42: a later write to a cell or a slot leaves nothing of the earlier one; out of bounds and
refused both draws do the same. -/
theorem laterDrawReplacesEarlier : Obligations.LaterDrawReplacesEarlier := by
  refine fun s x y r g b r' g' b' idx idx' hm => ⟨?fd, ?fp, ?rd, ?t4, ?t8⟩
  case fd =>
    obtain ⟨m, hfirst, hsecond⟩ := drawBitmap_replaces hm s.cfg.baseFD s.cfg.wFull s.cfg.hFull .two x y
      (pack15 s.cfg r g b) (pack15 s.cfg r' g' b')
    exact execSeq_pair hfirst hsecond
  case fp =>
    cases held : s.holdsPselFP with
    | false => exact execSeq_pair_refused (exec_drawFP_unheld held x y idx) (exec_drawFP_unheld held x y idx')
    | true =>
      obtain ⟨m, hfirst, hsecond⟩ := drawBitmap_replaces hm (s.cfg.baseFP s.pselFP) s.cfg.wFull s.cfg.hFull
        .one x y (cellOfByte idx) (cellOfByte idx')
      rw [← exec_drawFP_held held] at hfirst hsecond
      exact execSeq_pair hfirst ((exec_drawFP_held (s := s.setMem m) held x y idx').trans hsecond)
  case rd =>
    cases held : s.holdsPselRD with
    | false =>
      exact execSeq_pair_refused (exec_drawRD_unheld held x y r g b) (exec_drawRD_unheld held x y r' g' b')
    | true =>
      obtain ⟨m, hfirst, hsecond⟩ := drawBitmap_replaces hm (s.cfg.baseRD s.pselRD) s.cfg.wRed s.cfg.hRed
        .two x y (pack15 s.cfg r g b) (pack15 s.cfg r' g' b')
      rw [← exec_drawRD_held held] at hfirst hsecond
      exact execSeq_pair hfirst ((exec_drawRD_held (s := s.setMem m) held x y r' g' b').trans hsecond)
  case t4 =>
    cases held : s.holdsT4 with
    | false => exact execSeq_pair_refused (exec_drawT4_unheld held x y idx) (exec_drawT4_unheld held x y idx')
    | true =>
      by_cases hb : InBounds tileSide tileSide x y
      · exact execSeq_pair (exec_drawT4_in held hb idx) (exec_drawT4_drawn held hb idx idx')
      · exact execSeq_pair (exec_drawT4_out held hb idx) rfl
  case t8 =>
    cases held : s.holdsT8 with
    | false => exact execSeq_pair_refused (exec_drawT8_unheld held x y idx) (exec_drawT8_unheld held x y idx')
    | true =>
      by_cases hb : InBounds tileSide tileSide x y
      · exact execSeq_pair (exec_drawT8_in held hb idx) (exec_drawT8_drawn held hb idx idx')
      · exact execSeq_pair (exec_drawT8_out held hb idx) rfl

end Sys2Proof.Machine
end

section
/-! Proofs about the textual form (30_encoding.md section 9): the reader of a line (R81) gives back the word of
the command whose line it is. -/

namespace Sys2Proof.Machine

/-! ## Texts without separators -/

/-- The character separates nothing: no blank, no comma, no start of a comment. -/
def plainChar (c : Char) : Bool := !isBlank c && c != ',' && c != ';'

/-- A text that stands between separators. -/
structure PlainText (t : Text) : Prop where
  ne_nil : t ≠ []
  plain : ∀ c ∈ t, plainChar c = true

theorem plainChar_iff {c : Char} : plainChar c = true ↔ isBlank c = false ∧ c ≠ ',' ∧ c ≠ ';' := by
  simp [plainChar, and_assoc]

/-- A text that neither begins nor ends with a blank is not trimmed. -/
theorem trimmed_eq_self {t : Text} (hhead : ∀ c ∈ t.head?, isBlank c = false)
    (hlast : ∀ c ∈ t.getLast?, isBlank c = false) : trimmed t = t := by
  have hdrop : t.dropWhile isBlank = t := by
    cases t with
    | nil => rfl
    | cons c cs => rw [List.dropWhile_cons_of_neg (by simp [hhead c rfl])]
  have hdropRight : t.rdropWhile isBlank = t :=
    List.rdropWhile_eq_self_iff.mpr fun hne => by simp [hlast _ (List.getLast?_eq_some_getLast hne)]
  rw [trimmed, hdrop]
  exact hdropRight

section

variable {t : Text} (ht : PlainText t)
include ht

theorem PlainText.not_blank : ∀ c ∈ t, isBlank c = false := fun c hc => (plainChar_iff.mp (ht.plain c hc)).1

theorem PlainText.comma_not_mem : ',' ∉ t := fun h => (plainChar_iff.mp (ht.plain _ h)).2.1 rfl

theorem PlainText.semicolon_not_mem : ';' ∉ t := fun h => (plainChar_iff.mp (ht.plain _ h)).2.2 rfl

theorem PlainText.comma_not_mem_blank_cons : ',' ∉ ' ' :: t :=
  List.not_mem_cons_of_ne_of_not_mem (by decide) ht.comma_not_mem

theorem PlainText.head_not_blank : ∀ c ∈ t.head?, isBlank c = false := fun c hc =>
  ht.not_blank c (List.mem_of_mem_head? hc)

theorem PlainText.last_not_blank : ∀ c ∈ t.getLast?, isBlank c = false := fun c hc =>
  ht.not_blank c (List.mem_of_mem_getLast? hc)

theorem PlainText.trimmed_eq : trimmed t = t := trimmed_eq_self ht.head_not_blank ht.last_not_blank

theorem PlainText.trimmed_blank_cons : trimmed (' ' :: t) = t :=
  (congrArg (fun u => (u.reverse.dropWhile isBlank).reverse) (List.dropWhile_cons_of_pos rfl)).trans
    ht.trimmed_eq

/-- Up to the first blank stands the whole text. -/
theorem PlainText.takeWhile_append_blank (rest : Text) :
    (t ++ ' ' :: rest).takeWhile (fun c => !isBlank c) = t := by
  rw [List.takeWhile_append_of_pos fun c hc => by simp [ht.not_blank c hc]]
  simp [isBlank]

theorem PlainText.dropWhile_append_blank (rest : Text) :
    (t ++ ' ' :: rest).dropWhile (fun c => !isBlank c) = ' ' :: rest := by
  rw [List.dropWhile_append_of_pos fun c hc => by simp [ht.not_blank c hc]]
  simp [isBlank]

end

/-! ## Operands between commas -/

theorem splitAtChar_of_not_mem {sep : Char} {t : Text} (h : sep ∉ t) : splitAtChar sep t = [t] := by
  induction t with
  | nil => rfl
  | cons c cs ih =>
    obtain ⟨hc, hcs⟩ : sep ≠ c ∧ sep ∉ cs := by simpa using h
    rw [splitAtChar, if_neg (Ne.symm hc), ih hcs]

theorem splitAtChar_append_sep {sep : Char} {t : Text} (h : sep ∉ t) (rest : Text) :
    splitAtChar sep (t ++ sep :: rest) = t :: splitAtChar sep rest := by
  induction t with
  | nil => rw [List.nil_append, splitAtChar, if_pos rfl]
  | cons c cs ih =>
    obtain ⟨hc, hcs⟩ : sep ≠ c ∧ sep ∉ cs := by simpa using h
    rw [List.cons_append, splitAtChar, if_neg (Ne.symm hc), ih hcs]

theorem splitAtChar_separated {t : Text} {ts : List Text} (hts : ∀ u ∈ t :: ts, PlainText u) :
    splitAtChar ',' (' ' :: separated (t :: ts)) = (t :: ts).map (' ' :: ·) := by
  have ht := hts t List.mem_cons_self
  induction ts generalizing t with
  | nil => exact splitAtChar_of_not_mem ht.comma_not_mem_blank_cons
  | cons u us ih =>
    have hus : ∀ v ∈ u :: us, PlainText v := fun v hv => hts v (List.mem_cons_of_mem t hv)
    have hsplit := splitAtChar_append_sep ht.comma_not_mem_blank_cons (' ' :: separated (u :: us))
    rw [ih hus (hus u List.mem_cons_self)] at hsplit
    exact hsplit

theorem separated_cons_cons (t u : Text) (us : List Text) :
    separated (t :: u :: us) = t ++ ',' :: ' ' :: separated (u :: us) := rfl

theorem separated_head {t : Text} (ts : List Text) (ht : PlainText t) :
    (separated (t :: ts)).head? = t.head? := by
  obtain ⟨c, cs, rfl⟩ := List.exists_cons_of_ne_nil ht.ne_nil
  cases ts <;> rfl

theorem separated_ne_nil {t : Text} (ts : List Text) (ht : PlainText t) : separated (t :: ts) ≠ [] := by
  obtain ⟨c, cs, rfl⟩ := List.exists_cons_of_ne_nil ht.ne_nil
  cases ts <;> exact List.cons_ne_nil _ _

theorem separated_last_not_blank {t : Text} {ts : List Text} (hts : ∀ u ∈ t :: ts, PlainText u) :
    ∀ c ∈ (separated (t :: ts)).getLast?, isBlank c = false := by
  induction ts generalizing t with
  | nil => exact (hts t List.mem_cons_self).last_not_blank
  | cons u us ih =>
    have hus : ∀ v ∈ u :: us, PlainText v := fun v hv => hts v (List.mem_cons_of_mem t hv)
    have hne := separated_ne_nil us (hus u List.mem_cons_self)
    rw [separated_cons_cons, List.getLast?_append_cons, List.getLast?_cons_cons,
      List.getLast?_cons_of_ne_nil hne]
    exact ih hus

/-- The operands of a line are the texts that were written between its commas. -/
theorem operandList_separated {t : Text} {ts : List Text} (hts : ∀ u ∈ t :: ts, PlainText u) :
    operandList (' ' :: separated (t :: ts)) = t :: ts := by
  have ht := hts t List.mem_cons_self
  have htrim : trimmed (' ' :: separated (t :: ts)) = separated (t :: ts) :=
    (congrArg (fun u => (u.reverse.dropWhile isBlank).reverse) (List.dropWhile_cons_of_pos rfl)).trans
      (trimmed_eq_self (separated_head ts ht ▸ ht.head_not_blank) (separated_last_not_blank hts))
  rw [operandList, htrim, if_neg (separated_ne_nil ts ht), splitAtChar_separated hts, List.map_map]
  exact (List.map_congr_left fun u hu => (hts u hu).trimmed_blank_cons).trans (List.map_id' _)

theorem semicolon_not_mem_separated {ts : List Text} (hts : ∀ u ∈ ts, PlainText u) : ';' ∉ separated ts := by
  induction ts with
  | nil => exact List.not_mem_nil
  | cons t ts ih =>
    have ht := (hts t List.mem_cons_self).semicolon_not_mem
    cases ts with
    | nil => exact ht
    | cons u us =>
      have hrest := ih fun v hv => hts v (List.mem_cons_of_mem t hv)
      simp [separated, ht, hrest]

/-! ## A line -/

/-- A mnemonic and its operands as a line (R81). -/
def lineOf (mnemonic : Text) : List Text → Text
  | [] => mnemonic
  | t :: ts => mnemonic ++ ' ' :: separated (t :: ts)

theorem commandText_eq_lineOf (i : Instr) : commandText i = lineOf (mnemonicText i) (operandTexts i) := by
  rw [commandText]
  cases operandTexts i <;> rfl

section

variable {m : Text} {ts : List Text} (hm : PlainText m) (hts : ∀ t ∈ ts, PlainText t)
include hm hts

theorem lineOf_without_comment : (lineOf m ts).takeWhile (· ≠ ';') = lineOf m ts := by
  rw [List.takeWhile_eq_self_iff]
  intro c hc
  have hm' := hm.semicolon_not_mem
  have hline : ';' ∉ lineOf m ts := by
    cases ts with
    | nil => exact hm'
    | cons t ts => simp [lineOf, hm', semicolon_not_mem_separated hts]
  simpa using ne_of_mem_of_not_mem hc hline

theorem lineOf_trimmed : trimmed (lineOf m ts) = lineOf m ts := by
  cases ts with
  | nil => exact hm.trimmed_eq
  | cons t ts =>
    have hne := separated_ne_nil ts (hts t List.mem_cons_self)
    refine trimmed_eq_self ?_ ?_
    · rw [lineOf, List.head?_append_of_ne_nil _ hm.ne_nil]
      exact hm.head_not_blank
    · rw [lineOf, List.getLast?_append_cons, List.getLast?_cons_of_ne_nil hne]
      exact separated_last_not_blank hts

/-- A line of a mnemonic of Table O is read operand by operand. -/
theorem assembleLine_lineOf {row : OpRow} (hsingle : m.take 8 ≠ "DRAWSEQ.".toList)
    (hrow : mnemonicRow m = some row) :
    assembleLine (lineOf m ts) = (readOperands row.opcode row.format ts).map ([·]) := by
  have hne : lineOf m ts ≠ [] := by cases ts <;> simp [lineOf, hm.ne_nil]
  have hparts : (lineOf m ts).takeWhile (fun c => !isBlank c) = m ∧
      operandList ((lineOf m ts).dropWhile fun c => !isBlank c) = ts := by
    cases ts with
    | nil =>
      have hall : ∀ c ∈ m, (!isBlank c) = true := fun c hc => by simp [hm.not_blank c hc]
      exact ⟨List.takeWhile_eq_self_iff.mpr hall, by rw [lineOf, List.dropWhile_eq_nil_iff.mpr hall]; rfl⟩
    | cons t ts =>
      exact ⟨hm.takeWhile_append_blank _, by rw [lineOf, hm.dropWhile_append_blank, operandList_separated hts]⟩
  obtain ⟨hmnemonic, hoperands⟩ := hparts
  simp only [assembleLine, lineOf_without_comment hm hts, lineOf_trimmed hm hts, if_neg hne, hmnemonic,
    if_neg hsingle, hrow, hoperands, Option.bind_some]

end

/-! ## Reading operands back -/

theorem isDigit_of_mem_decimalText {n : Nat} {c : Char} (hc : c ∈ decimalText n) : c.isDigit = true :=
  Nat.isDigit_of_mem_toDigits (by decide) (by decide) hc

theorem readDecimal_decimalText (n : Nat) : readDecimal (decimalText n) = some n := by
  have hdigits : (decimalText n).all Char.isDigit = true :=
    List.all_eq_true.mpr fun _ => isDigit_of_mem_decimalText
  rw [readDecimal, if_pos ⟨Nat.toDigits_ne_nil, hdigits⟩, decimalText, Nat.ofDigitChars_ten_toDigits]

theorem plain_of_isDigit {c : Char} (h : c.isDigit = true) : plainChar c = true := by
  refine plainChar_iff.mpr ⟨?_, ?_, ?_⟩
  · by_contra hblank
    simp only [isBlank, Bool.not_eq_false, Bool.or_eq_true, beq_iff_eq] at hblank
    rcases hblank with rfl | rfl <;> simp at h
  · rintro rfl; simp at h
  · rintro rfl; simp at h

theorem plain_decimalText (n : Nat) : PlainText (decimalText n) :=
  ⟨Nat.toDigits_ne_nil, fun _ hc => plain_of_isDigit (isDigit_of_mem_decimalText hc)⟩

theorem plain_coordText (c : Coord) : PlainText (coordText c) := by
  have hplain := plain_decimalText c.toInt.natAbs
  rw [coordText]
  split
  · exact ⟨List.cons_ne_nil _ _, List.forall_mem_cons.mpr ⟨by decide, hplain.plain⟩⟩
  · exact hplain

theorem plain_pageText (p : Page) : PlainText (pageText p) := by
  cases p <;> exact ⟨by simp [pageText], by simp [pageText, plainChar, isBlank]⟩

theorem plain_operandTexts (i : Instr) : ∀ t ∈ operandTexts i, PlainText t := by
  cases i <;> simp only [operandTexts, List.forall_mem_cons, List.not_mem_nil, false_imp_iff, implies_true,
    and_true, plain_coordText, plain_decimalText, plain_pageText]

theorem below_of_lt {bound n : Nat} (h : n < bound) : below bound (some n) = some n := by
  simp [below, h]

theorem readChannel_decimalText (c : Channel) : readChannel (decimalText c.toNat) = some c := by
  rw [readChannel, readDecimal_decimalText, below_of_lt c.isLt, Option.map_some, BitVec.ofNat_toNat,
    BitVec.setWidth_eq]

/-- A decimal number is no hexadecimal one: its second character is no `x`. -/
theorem decimalText_ne_hex (n : Nat) (ds : Text) : decimalText n ≠ '0' :: 'x' :: ds := fun e =>
  absurd (isDigit_of_mem_decimalText (n := n) (c := 'x') (by rw [e]; simp)) (by decide)

theorem decimalText_ne_minus (n : Nat) (ds : Text) : decimalText n ≠ '-' :: ds := fun e =>
  absurd (isDigit_of_mem_decimalText (n := n) (c := '-') (by rw [e]; simp)) (by decide)

theorem readIndex_decimalText (idx : Index) : readIndex (decimalText idx.toNat) = some idx := by
  unfold readIndex
  split
  · next ds e => exact absurd e (decimalText_ne_hex _ ds)
  · rw [readDecimal_decimalText, below_of_lt idx.isLt, Option.map_some, BitVec.ofNat_toNat, BitVec.setWidth_eq]

theorem readCoord_decimalText {n : Nat} (h : n < 2 ^ 31) :
    readCoord (decimalText n) = some (BitVec.ofNat 32 n) := by
  unfold readCoord
  split
  · next ds e => exact absurd e (decimalText_ne_hex n ds)
  · next ds e => exact absurd e (decimalText_ne_minus n ds)
  · rw [readDecimal_decimalText, below_of_lt h, Option.map_some]

theorem readCoord_minus {n : Nat} (h : n < 2 ^ 31 + 1) :
    readCoord ('-' :: decimalText n) = some (BitVec.ofInt 32 (-(n : Int))) := by
  simp only [readCoord, readDecimal_decimalText, below_of_lt h]
  rfl

theorem readCoord_coordText (c : Coord) : readCoord (coordText c) = some c := by
  have hlow := c.le_toInt
  have hhigh := c.toInt_lt
  rw [coordText]
  split
  · next hneg =>
    rw [readCoord_minus (by omega), show -(c.toInt.natAbs : Int) = c.toInt by omega, BitVec.ofInt_toInt]
  · next hpos =>
    rw [readCoord_decimalText (by omega), ← BitVec.ofInt_natCast,
      show (c.toInt.natAbs : Int) = c.toInt by omega, BitVec.ofInt_toInt]

theorem readPage_pageText (p : Page) : readPage (pageText p) = some p := by cases p <;> decide

theorem readColour_decimalText (r g b : Channel) :
    readColour (decimalText r.toNat) (decimalText g.toNat) (decimalText b.toNat) = some (colourWord r g b) := by
  simp only [readColour, readChannel_decimalText, Option.bind_some, Option.map_some]

/-! ## Each command reads back -/

/-- The row of the command's opcode reads the command's operands as its word. -/
def ReadsBack (i : Instr) : Prop :=
  ∃ row, opcodeRow (opcodeByte (encode i)) = some row ∧
    readOperands row.opcode row.format (operandTexts i) = some (encode i)

theorem readsBack_of_row {i : Instr} {opc : BitVec 8} {w1 w2 w3 : Word} {row : OpRow}
    (hrow : opcodeRow opc = some row) (hword : encode i = commandWord (opcodeWord opc) w1 w2 w3)
    (hread : readOperands row.opcode row.format (operandTexts i) = some (commandWord (opcodeWord opc) w1 w2 w3)) :
    ReadsBack i :=
  ⟨row, by rw [hword, opcodeByte_commandWord, hrow], by rw [hread, hword]⟩

section

variable (opc : BitVec 8)

theorem readOperands_DD (x y : Coord) (r g b : Channel) :
    readOperands opc .DD
        [coordText x, coordText y, decimalText r.toNat, decimalText g.toNat, decimalText b.toNat] =
      some (commandWord (opcodeWord opc) x y (colourWord r g b)) := by
  simp only [readOperands, readCoord_coordText, readColour_decimalText, Option.bind_some, Option.map_some]

theorem readOperands_DP (x y : Coord) (idx : Index) :
    readOperands opc .DP [coordText x, coordText y, decimalText idx.toNat] =
      some (commandWord (opcodeWord opc) x y (indexWord idx)) := by
  simp only [readOperands, readCoord_coordText, readIndex_decimalText, Option.bind_some, Option.map_some]

theorem readOperands_CD (r g b : Channel) :
    readOperands opc .CD [decimalText r.toNat, decimalText g.toNat, decimalText b.toNat] =
      some (commandWord (opcodeWord opc) 0 0 (colourWord r g b)) := by
  simp only [readOperands, readColour_decimalText, Option.map_some]

theorem readOperands_CP (idx : Index) :
    readOperands opc .CP [decimalText idx.toNat] =
      some (commandWord (opcodeWord opc) 0 0 (indexWord idx)) := by
  simp only [readOperands, readIndex_decimalText, Option.map_some]

theorem readOperands_SP (p : Page) :
    readOperands opc .SP [pageText p] = some (commandWord (opcodeWord opc) 0 0 (pageWord p)) := by
  simp only [readOperands, readPage_pageText, Option.map_some]

end

theorem readsBack (i : Instr) : ReadsBack i := by
  cases i with
  | drawFD x y r g b | drawRD x y r g b => exact readsBack_of_row rfl rfl (readOperands_DD _ x y r g b)
  | clearFD r g b | clearRD r g b => exact readsBack_of_row rfl rfl (readOperands_CD _ r g b)
  | drawFP x y idx | drawT4 x y idx | drawT8 x y idx => exact readsBack_of_row rfl rfl (readOperands_DP _ x y idx)
  | clearFP idx | clearT4 idx | newT4 idx | clearT8 idx | newT8 idx =>
    exact readsBack_of_row rfl rfl (readOperands_CP _ idx)
  | selectFP p | selectRD p => exact readsBack_of_row rfl rfl (readOperands_SP _ p)
  | sizeFD | sizeFP | sizeRD | sizeT4 | sizeT8 => exact readsBack_of_row rfl rfl rfl

/-- What the reader needs of the mnemonics of Table O: each stands between separators, none is that of a
sequence, and each names its own row. -/
theorem mnemonics_of_tableO : ∀ row ∈ tableO, PlainText row.mnemonic.toList ∧
    row.mnemonic.toList.take 8 ≠ "DRAWSEQ.".toList ∧ mnemonicRow row.mnemonic.toList = some row := by
  simp only [tableO, List.forall_mem_cons]
  refine ⟨?_, ?_, ?_, ?_, ?_, ?_, ?_, ?_, ?_, ?_, ?_, ?_, ?_, ?_, ?_, ?_, ?_, ?_, ?_, List.forall_mem_nil _⟩ <;>
    exact ⟨⟨by simp, by simp [plainChar, isBlank]⟩, by simp, rfl⟩

/-- Settles O6: the line splits into the mnemonic and the operand texts it was made of, the mnemonic names
the row of the command, and each operand text reads back as its operand. -/
theorem assemblerReadsWhatItWrites : Obligations.AssemblerReadsWhatItWrites := by
  intro i
  obtain ⟨row, hrow, hread⟩ := readsBack i
  obtain ⟨hplain, hsingle, hmnemonic⟩ := mnemonics_of_tableO row (opcodeRow_some hrow).1
  have htext : mnemonicText i = row.mnemonic.toList := by rw [mnemonicText, hrow]
  rw [commandText_eq_lineOf, htext, assembleLine_lineOf hplain (plain_operandTexts i) hsingle hmnemonic, hread]
  rfl

end Sys2Proof.Machine
end
